-- ==== Sys2Proof/Word.lean ====
section
/-! DEFINITION. The two word types of the block (00_scope.md R5, R7): every value is unsigned, and `BitVec` arithmetic is the
spec's exact arithmetic followed by `wrap8` or `wrap16`. -/

namespace Sys2Proof

/-- An 8-bit value: a general register, the flags byte, a memory byte, an opcode (R5). -/
abbrev Byte := BitVec 8

/-- A 16-bit value: PC, SP, a register pair, an address (R5). -/
abbrev Word := BitVec 16

end Sys2Proof
end

