-- ==== Sys2Proof/Machine/Bits.lean ====
section
/-! DEFINITION. Byte-order helpers: a 16-bit value and its two bytes (00_scope.md R8). -/

namespace Sys2Proof.Machine

/-- `v[7:0]`. -/
def loByte (v : Word) : Byte := v.extractLsb' 0 8

/-- `v[15:8]`. -/
def hiByte (v : Word) : Byte := v.extractLsb' 8 8

/-- `hi:lo`, the 16-bit value `hi * 256 + lo` (R8). -/
def joinBytes (hi lo : Byte) : Word := BitVec.ofNat 16 (hi.toNat * 256 + lo.toNat)

end Sys2Proof.Machine
end

