-- ==== Sys2Proof/Syntax.lean ====
section
/-! DEFINITION. The instructions: one constructor per row of spec/opcode_table.json, in the table's order.

An immediate operand is no field of a constructor, because the decoder looks at the opcode byte alone (30_encoding.md R55) and
"never depends on memory contents" (R64): it records the immediate's ADDRESS, and the operand resolver reads the bytes while the
instruction runs (R58). The instruction together with its immediate, as an assembler writes it, is `AsmInstr` (WellFormed.lean). -/

namespace Sys2Proof

inductive Instr where
  /-- `NOP`, opcode 0x00 (R102). -/
  | nop
  /-- `LD BC,d16`, opcode 0x01 (R104). -/
  | ldBcD16
  /-- `LD (BC),A`, opcode 0x02 (R105). -/
  | ldBcA
  /-- `INC BC`, opcode 0x03 (R110). -/
  | incBc
  /-- `INC B`, opcode 0x04 (R111). -/
  | incB
  /-- `DEC B`, opcode 0x05 (R112). -/
  | decB
  /-- `LD B,d8`, opcode 0x06 (R106). -/
  | ldBD8
  /-- `RLCA`, opcode 0x07 (R116). -/
  | rlca
  /-- `LD (a16),SP`, opcode 0x08 (R107). -/
  | ldA16Sp
  /-- `ADD HL,BC`, opcode 0x09 (R114). -/
  | addHlBc
  /-- The table's default row: any other opcode, which decodes to the failure UnimplementedOpcode (R66). -/
  | unimplementedOpcode (opcode : Byte)
  deriving DecidableEq, Repr

end Sys2Proof
end

