-- ==== Sys2Proof/WellFormed.lean ====
section
/-! DEFINITION. What a well-formed instruction is, alone and together with its immediate operand. The well-formedness of a decode
table ENTRY (30_encoding.md R73) is in Machine/Checks.lean, because a step runs those checks. -/

namespace Sys2Proof

/-- The byte formats of R54. -/
inductive Format where
  | op | opD8 | opD16
  deriving DecidableEq, Repr

/-- The immediate operand that follows an opcode: none, one byte `d8`, or two bytes `d16`/`a16` (R54, R58). -/
inductive Immediate where
  | none
  | d8 (v : Byte)
  | d16 (v : Word)
  deriving DecidableEq, Repr

/-- An instruction with its immediate operand: what an assembler line such as `LD BC,0x1234` says (R70). -/
structure AsmInstr where
  instr : Instr
  imm : Immediate
  deriving DecidableEq, Repr

/-- Each instruction's format (R54). The default row's format is `OP` (opcode_table.json). -/
def Instr.format : Instr → Format
  | .nop => .op
  | .ldBcD16 => .opD16
  | .ldBcA => .op
  | .incBc => .op
  | .incB => .op
  | .decB => .op
  | .ldBD8 => .opD8
  | .rlca => .op
  | .ldA16Sp => .opD16
  | .addHlBc => .op
  | .unimplementedOpcode _ => .op

/-- The default row stands only for an opcode outside 0x00–0x09 (R66); every other constructor is well-formed. -/
def Instr.wf : Instr → Bool
  | .nop => true
  | .ldBcD16 => true
  | .ldBcA => true
  | .incBc => true
  | .incB => true
  | .decB => true
  | .ldBD8 => true
  | .rlca => true
  | .ldA16Sp => true
  | .addHlBc => true
  | .unimplementedOpcode opcode => decide (0x0A ≤ opcode.toNat)

/-- An immediate of the width the format has room for. -/
def Immediate.fits : Immediate → Format → Bool
  | .none, .op => true
  | .d8 _, .opD8 => true
  | .d16 _, .opD16 => true
  | _, _ => false

/-- An instruction with its immediate is well-formed when both parts are. -/
def AsmInstr.wf (a : AsmInstr) : Bool :=
  a.instr.wf && a.imm.fits a.instr.format

end Sys2Proof
end

