-- ==== Sys2Proof/Decode.lean ====
section
/-! DEFINITION. The decoder of opcodes and of bytes, and the encoder, all written from spec/opcode_table.json and 30_encoding.md
R54 and R62. The decoder proper looks at one byte (R55); `decode` reads a byte string, which is what a disassembler or a loader
needs, and takes the immediate bytes that the format says follow the opcode. -/

namespace Sys2Proof

/-- Exact match on all eight bits of the opcode (R55); an opcode outside 0x00–0x09 is the table's default row (R66). -/
def decodeOpcode (opcode : Byte) : Instr :=
  match opcode.toNat with
  | 0x00 => .nop
  | 0x01 => .ldBcD16
  | 0x02 => .ldBcA
  | 0x03 => .incBc
  | 0x04 => .incB
  | 0x05 => .decB
  | 0x06 => .ldBD8
  | 0x07 => .rlca
  | 0x08 => .ldA16Sp
  | 0x09 => .addHlBc
  | _ => .unimplementedOpcode opcode

/-- Why a byte string spells no instruction: it is empty, or it ends inside the immediate. Neither happens in the block, whose
memory is total and whose addresses wrap (20_memory.md R39, R43). -/
inductive DecodeError where
  | noBytes
  | truncated (opcode : Byte)
  deriving DecidableEq, Repr

/-- Reads one instruction with its immediate (R58: the low byte first) and gives the bytes that follow it. The default row takes
the opcode byte alone: "the following byte is not read" (R67). -/
def decode : List Byte → Except DecodeError (AsmInstr × List Byte)
  | [] => .error .noBytes
  | opcode :: bytes =>
    let i := decodeOpcode opcode
    match i.format, bytes with
    | .op, rest => .ok (⟨i, .none⟩, rest)
    | .opD8, d :: rest => .ok (⟨i, .d8 d⟩, rest)
    | .opD16, l :: h :: rest => .ok (⟨i, .d16 (Machine.joinBytes h l)⟩, rest)
    | _, _ => .error (.truncated opcode)

/-- The opcode byte of an instruction (R62). -/
def Instr.opcode : Instr → Byte
  | .nop => 0x00
  | .ldBcD16 => 0x01
  | .ldBcA => 0x02
  | .incBc => 0x03
  | .incB => 0x04
  | .decB => 0x05
  | .ldBD8 => 0x06
  | .rlca => 0x07
  | .ldA16Sp => 0x08
  | .addHlBc => 0x09
  | .unimplementedOpcode opcode => opcode

/-- The immediate's bytes in memory order (R54, R58). -/
def Immediate.bytes : Immediate → List Byte
  | .none => []
  | .d8 v => [v]
  | .d16 v => [Machine.loByte v, Machine.hiByte v]

/-- The bytes of an instruction in memory order (R54). -/
def encode (a : AsmInstr) : List Byte :=
  a.instr.opcode :: a.imm.bytes

/-- The assembler spelling of an instruction (R70); the three that the source does not spell are D25. The default row is not an
instruction and has the table's own name. -/
def Instr.spelling : Instr → String
  | .nop => "NOP"
  | .ldBcD16 => "LD BC,d16"
  | .ldBcA => "LD (BC),A"
  | .incBc => "INC BC"
  | .incB => "INC B"
  | .decB => "DEC B"
  | .ldBD8 => "LD B,d8"
  | .rlca => "RLCA"
  | .ldA16Sp => "LD (a16),SP"
  | .addHlBc => "ADD HL,BC"
  | .unimplementedOpcode _ => "(UnimplementedOpcode)"

/-- The three bytes, in memory order, of a word that spec/opcode_table.json numbers from the first byte's bit 0: bits above
`nbits` are 0, and the longest instruction has three bytes (R54). -/
def tableWordBytes (nbits w : Nat) : List Byte :=
  let v := w % 2 ^ nbits
  [BitVec.ofNat 8 v, BitVec.ofNat 8 (v / 2 ^ 8), BitVec.ofNat 8 (v / 2 ^ 16)]

/-- The instruction the decoder reads from a word of the opcode table. -/
def decodeTableWord (nbits w : Nat) : Option Instr :=
  match decode (tableWordBytes nbits w) with
  | .ok (a, _) => some a.instr
  | .error _ => none

end Sys2Proof
end

