-- ==== Sys2Proof/Machine/Descriptor.lean ====
section
/-! DEFINITION. The decode-time data of 30_encoding.md: register names, operand descriptors, operation kinds, flag policies, the
Instruction the decoder produces (R59), the table entries it is produced from (R62, R69), and the execution-time Flag Result (R93). -/

namespace Sys2Proof.Machine

/-- The names of the seven 8-bit registers (10_state.md R15). The flags byte is no operand. -/
inductive Reg8 where
  | a | b | c | d | e | h | l
  deriving DecidableEq, Repr

/-- The 16-bit operand names: three pair views and SP (R18, R19, D12). -/
inductive Reg16 where
  | bc | de | hl | sp
  deriving DecidableEq, Repr

/-- The four flags: Zero, Subtract (N), HalfCarry and Carry (R21). -/
inductive Flag where
  | zero | subtract | halfCarry | carry
  deriving DecidableEq, Repr

/-- An operand descriptor, "instruction target" (R60). An Indirect may hold any descriptor. -/
inductive Operand where
  | reg8 (r : Reg8)
  | reg16 (p : Reg16)
  | imm8 (addr : Word)
  | imm16 (addr : Word)
  | indirect (inner : Operand)
  deriving DecidableEq, Repr

/-- The two access widths of the operand resolver (R79). -/
inductive OperandWidth where
  | w8 | w16
  deriving DecidableEq, Repr

/-- The direction of a rotate (R65). -/
inductive RotateDir where
  | left | right
  deriving DecidableEq, Repr

/-- The operation kinds (R65). -/
inductive OpKind where
  | nop | ld | inc | dec | add
  | rxc (dir : RotateDir)
  deriving DecidableEq, Repr

/-- What a policy does to one flag (R59, R94). -/
inductive FlagPolicy where
  | unmodified | set | unset | dependent
  deriving DecidableEq, Repr

/-- The Flag Effect Policy: one value per flag (R59). -/
structure FlagPolicies where
  zero : FlagPolicy
  subtract : FlagPolicy
  halfCarry : FlagPolicy
  carry : FlagPolicy
  deriving DecidableEq, Repr

/-- A Flag Result: Set (`true`) or Unset (`false`) for some of the flags, `none` for a flag the kind does not compute (R93). -/
structure FlagResult where
  zero : Option Bool
  subtract : Option Bool
  halfCarry : Option Bool
  carry : Option Bool
  deriving DecidableEq, Repr

/-- The byte length of an instruction (R54, R59). -/
inductive ByteLength where
  | one | two | three
  deriving DecidableEq, Repr

/-- The Instruction a decode produces (R59). It lives within one step and is no state (R32). -/
structure Descriptor where
  src : Option Operand
  dst : Option Operand
  kind : OpKind
  length : ByteLength
  cycles : Nat
  policy : FlagPolicies
  deriving DecidableEq, Repr

/-- An operand as a table entry writes it: an immediate stands at an offset from pc (R62 writes `pc+1`), and the decoder puts the
address in its place (R57, R64). -/
inductive OperandSlot where
  | reg8 (r : Reg8)
  | reg16 (p : Reg16)
  | imm8 (offset : Word)
  | imm16 (offset : Word)
  | indirect (inner : OperandSlot)
  deriving DecidableEq, Repr

/-- One row of the decode table (R62): it "fixes every field of its Instruction" (R69). -/
structure Entry where
  opcode : Byte
  src : Option OperandSlot
  dst : Option OperandSlot
  kind : OpKind
  length : ByteLength
  cycles : Nat
  policy : FlagPolicies
  deriving DecidableEq, Repr

/-- A decode table is data (R69). -/
abbrev DecodeTable := List Entry

end Sys2Proof.Machine
end

