-- ==== Sys2Proof/Machine/State.lean ====
section
/-! DEFINITION. The state between two steps: the register file of 10_state.md R15 and the memory of 20_memory.md R37, "and nothing
else" (R33); the reasons a step can fail (60_exceptions.md R118); what a step returns (40_execution_core.md R74). -/

namespace Sys2Proof.Machine

/-- The memory: (address, byte) pairs in rising order of address. An unlisted address reads 0x00, the value every byte has at
creation (R38), and no pair holds 0x00, so that equal memories are equal lists (R37). -/
abbrev Memory := List Host.Cell

/-- `m` lists only addresses from `least` up to 0xFFFF, strictly rising, and no byte that an unlisted address reads as. -/
def Memory.wfFrom (least : Nat) : Memory → Bool
  | [] => true
  | (k, v) :: rest => decide (least ≤ k) && decide (k < 0x10000) && (v != 0) && Memory.wfFrom (k + 1) rest

/-- The canonical form of a memory. -/
def Memory.wf (m : Memory) : Bool := Memory.wfFrom 0 m

/-- The whole state of the block (R33). The pairs BC, DE, HL and AF are views of these fields (R18, R20). -/
structure State where
  a : Byte
  b : Byte
  c : Byte
  d : Byte
  e : Byte
  h : Byte
  l : Byte
  /-- The packed flags byte (R21). -/
  f : Byte
  pc : Word
  sp : Word
  mem : Memory
  deriving DecidableEq, Repr

/-- The state at power-on: "with all fields zero" (R34, R38, R136). -/
def State.reset : State where
  a := 0
  b := 0
  c := 0
  d := 0
  e := 0
  h := 0
  l := 0
  f := 0
  pc := 0
  sp := 0
  mem := []

/-- The four failures of R118. Each carries the opcode of the failing step (D16), leaves the state as it was (R99), and ends the
stream (R125). Safe: the step stops exactly where the spec's step fails. -/
inductive Fault where
  /-- Code 1. Raised by decode, phase 1, for every opcode outside the table: 0x0A–0xFF (R66, R119). Safe. -/
  | unimplementedOpcode (opcode : Byte)
  /-- Code 2. Raised by phase 2 when an access has a width its descriptor is not valid for, or an operand is missing (R84, R120).
  No entry of the table raises it (R73). Safe. -/
  | invalidOperandWidth (opcode : Byte)
  /-- Code 3. Raised by phase 2 when a Dependent policy stands on a flag the kind does not compute (R95, R121). No entry of the
  table raises it (R73). Safe. -/
  | missingFlagResult (opcode : Byte)
  /-- Code 4. Raised by phase 2 for the kind RXC(Right) (R117, R122). No entry of the table raises it (R73). Safe. -/
  | notImplemented (opcode : Byte)
  deriving DecidableEq, Repr

/-- The reasons to have no meaning for an instruction. -/
inductive Refusal where
  /-- Raised by an arm of `exec` whose instruction has no meaning yet; no arm of this model does. Safe. -/
  | notModelled (mnemonic : String)
  deriving DecidableEq, Repr

/-- What `step(opcode)` returns (R74): the next state with the cycle cost, or a failure, after which the state is as before and no
cycle value is reported (D6). -/
inductive StepResult where
  | ok (next : State) (cycles : Nat)
  | fail (failure : Fault)
  deriving DecidableEq, Repr

end Sys2Proof.Machine
end

