-- ==== Sys2Proof/Machine/Ops.lean ====
section
/-! DEFINITION. The named operations over memory and registers, the host accessors among them (10_state.md R17–R23, R36;
20_memory.md R39–R41), the PC advance, and the ONE way a step ends in a failure (60_exceptions.md R125). The block has no
exception entry beyond that: it "saves nothing, changes no mode or mask, touches no stack, and jumps to no vector" (R125), and it
has no return (R126). -/

namespace Sys2Proof.Machine

/-! ## Memory -/

/-- The byte listed at `k`, or 0x00 (R38). -/
def Memory.lookup : Memory → Nat → Byte
  | [], _ => 0
  | (k', v) :: rest, k => if k' = k then v else Memory.lookup rest k

/-- Every pair at `k` taken out. -/
def Memory.erase : Memory → Nat → Memory
  | [], _ => []
  | (k', v) :: rest, k => if k' = k then Memory.erase rest k else (k', v) :: Memory.erase rest k

/-- A pair put before the first greater address. -/
def Memory.insert : Memory → Nat → Byte → Memory
  | [], k, v => [(k, v)]
  | (k', v') :: rest, k, v =>
    if k < k' then (k, v) :: (k', v') :: rest else (k', v') :: Memory.insert rest k v

/-- The byte at `k` replaced; writing what an unlisted address reads as takes the pair out. -/
def Memory.store (m : Memory) (k : Nat) (v : Byte) : Memory :=
  if v = 0 then Memory.erase m k else Memory.insert (Memory.erase m k) k v

/-- `MemRead(addr, 1)` (R39). -/
def Memory.read8 (m : Memory) (addr : Word) : Byte := Memory.lookup m addr.toNat

/-- `MemWrite(addr, 1, v)` (R39). -/
def Memory.write8 (m : Memory) (addr : Word) (v : Byte) : Memory := Memory.store m addr.toNat v

/-- `MemRead(addr, 2)`: little-endian, and the second address wraps (R40, D4). -/
def Memory.read16 (m : Memory) (addr : Word) : Word :=
  joinBytes (Memory.read8 m (addr + 1)) (Memory.read8 m addr)

/-- `MemWrite(addr, 2, v)`: the low byte first, then the high byte at the wrapped next address (R41, D4, D15). -/
def Memory.write16 (m : Memory) (addr : Word) (v : Word) : Memory :=
  Memory.write8 (Memory.write8 m addr (loByte v)) (addr + 1) (hiByte v)

/-! ## Registers and pairs -/

/-- `R[r]` (R17). -/
def State.getReg8 (s : State) : Reg8 → Byte
  | .a => s.a
  | .b => s.b
  | .c => s.c
  | .d => s.d
  | .e => s.e
  | .h => s.h
  | .l => s.l

/-- `R[r] <- v` (R17). -/
def State.setReg8 (s : State) (r : Reg8) (v : Byte) : State :=
  match r with
  | .a => { s with a := v }
  | .b => { s with b := v }
  | .c => { s with c := v }
  | .d => { s with d := v }
  | .e => { s with e := v }
  | .h => { s with h := v }
  | .l => { s with l := v }

/-- `P[p]`: the high byte is the first-named register (R18, R19). -/
def State.getReg16 (s : State) : Reg16 → Word
  | .bc => joinBytes s.b s.c
  | .de => joinBytes s.d s.e
  | .hl => joinBytes s.h s.l
  | .sp => s.sp

/-- `P[p] <- v` (R18, R19). -/
def State.setReg16 (s : State) (p : Reg16) (v : Word) : State :=
  match p with
  | .bc => { s with b := hiByte v, c := loByte v }
  | .de => { s with d := hiByte v, e := loByte v }
  | .hl => { s with h := hiByte v, l := loByte v }
  | .sp => { s with sp := v }

/-! ## Flags -/

/-- The flag's bit in F (R21, D10). -/
def Flag.bit : Flag → Nat
  | .zero => 7
  | .subtract => 6
  | .halfCarry => 5
  | .carry => 4

/-- One bit of a flags byte made `v`, the other bits kept (R22). -/
def setFlagBit (f : Byte) (x : Flag) (v : Bool) : Byte :=
  let mask : Byte := 1 <<< x.bit
  if v then f ||| mask else f &&& ~~~mask

/-- `F.x` (R22). -/
def State.getFlag (s : State) (x : Flag) : Bool := s.f.getLsbD x.bit

/-- `F.x <- v` (R22). -/
def State.setFlag (s : State) (x : Flag) (v : Bool) : State := { s with f := setFlagBit s.f x v }

/-- The whole flags byte read (R23). -/
def State.getFlags (s : State) : Byte := s.f

/-- The whole flags byte written: bits 3..0 are dropped (R23, D11). -/
def State.setFlags (s : State) (v : Byte) : State := { s with f := v &&& 0xF0 }

/-- The AF view, a host accessor (R20). -/
def State.getAF (s : State) : Word := joinBytes s.a s.f

/-- The AF view written: A takes the high byte, and the low byte is written as a flags byte (R20, R23). -/
def State.setAF (s : State) (v : Word) : State := ({ s with a := hiByte v } : State).setFlags (loByte v)

/-! ## The program counter, and the two ways a step ends -/

/-- The byte length as a number (R54). -/
def ByteLength.toNat : ByteLength → Nat
  | .one => 1
  | .two => 2
  | .three => 3

/-- `wrap16(pc + length)` (R97, D4). -/
def advancePc (pc : Word) (length : ByteLength) : Word := pc + BitVec.ofNat 16 length.toNat

/-- Ending a step in a failure: the failure is reported and nothing else happens (R99, R125). -/
def raiseFailure (failure : Fault) : StepResult := .fail failure

/-- The numeric code of a failure (R118, D16). -/
def Fault.code : Fault → Nat
  | .unimplementedOpcode _ => 1
  | .invalidOperandWidth _ => 2
  | .missingFlagResult _ => 3
  | .notImplemented _ => 4

/-- The opcode a failure carries (R118, D16). -/
def Fault.opcode : Fault → Byte
  | .unimplementedOpcode op => op
  | .invalidOperandWidth op => op
  | .missingFlagResult op => op
  | .notImplemented op => op

/-- The state after a step from `s`: a failing step leaves it as it was (R99). -/
def StepResult.stateAfter (r : StepResult) (s : State) : State :=
  match r with
  | .ok s' _ => s'
  | .fail _ => s

/-- The step's outcome without its cycle count, which the host's interface has no place for (notes/assumptions/6.md). -/
def StepResult.toOutcome : StepResult → Host.Outcome State Fault Refusal
  | .ok s' _ => .next s'
  | .fail failure => .fault failure

end Sys2Proof.Machine
end

