-- ==== Sys2Proof/Machine/Flags.lean ====
section
/-! DEFINITION. The Flag Rule Engine (40_execution_core.md R88–R92) and the flag effect policy (R93–R96). -/

namespace Sys2Proof.Machine

/-- The arithmetic mode of a flag predicate (R88). -/
inductive ArithMode where
  | add | subtract
  deriving DecidableEq, Repr

/-- R89: true iff a + b exceeds 255. -/
def addCarry8 (a b : Byte) : Bool := decide (a.toNat + b.toNat > 255)

/-- R89: the carry out of bit 3. -/
def addHalfCarry8 (a b : Byte) : Bool := decide ((a &&& 0xF).toNat + (b &&& 0xF).toNat ≥ 0x10)

/-- R90: true iff b > a, a borrow is required. -/
def subCarry8 (a b : Byte) : Bool := decide (b.toNat > a.toNat)

/-- R90 (90_conflicts.md C1): the low nibble of the minuend is less than that of the subtrahend. -/
def subHalfCarry8 (a b : Byte) : Bool := decide ((a &&& 0xF).toNat < (b &&& 0xF).toNat)

/-- R91: the carry out of bit 15. -/
def addCarry16 (a b : Word) : Bool := decide (a.toNat + b.toNat > 0xFFFF)

/-- R91 (C2): the carry out of bit 11 into bit 12. -/
def addHalfCarry16 (a b : Word) : Bool := decide ((a &&& 0xFFF).toNat + (b &&& 0xFFF).toNat ≥ 0x1000)

/-- R92 (D23). -/
def subCarry16 (a b : Word) : Bool := decide (b.toNat > a.toNat)

/-- R92 (D23). -/
def subHalfCarry16 (a b : Word) : Bool := decide ((a &&& 0xFFF).toNat < (b &&& 0xFFF).toNat)

/-- The 8-bit carry predicate of a mode (R88). -/
def carry8 : ArithMode → Byte → Byte → Bool
  | .add => addCarry8
  | .subtract => subCarry8

/-- The 8-bit half-carry predicate of a mode (R88). -/
def halfCarry8 : ArithMode → Byte → Byte → Bool
  | .add => addHalfCarry8
  | .subtract => subHalfCarry8

/-- The 16-bit carry predicate of a mode (R88). -/
def carry16 : ArithMode → Word → Word → Bool
  | .add => addCarry16
  | .subtract => subCarry16

/-- The 16-bit half-carry predicate of a mode (R88). -/
def halfCarry16 : ArithMode → Word → Word → Bool
  | .add => addHalfCarry16
  | .subtract => subHalfCarry16

/-- The empty Flag Result of NOP and LD (R93). -/
def noFlagResult : FlagResult where
  zero := none
  subtract := none
  halfCarry := none
  carry := none

/-- The policy of one flag. -/
def FlagPolicies.get (p : FlagPolicies) : Flag → FlagPolicy
  | .zero => p.zero
  | .subtract => p.subtract
  | .halfCarry => p.halfCarry
  | .carry => p.carry

/-- The result of one flag. -/
def FlagResult.get (fr : FlagResult) : Flag → Option Bool
  | .zero => fr.zero
  | .subtract => fr.subtract
  | .halfCarry => fr.halfCarry
  | .carry => fr.carry

/-- One flag of F updated by its policy (R94); `none` is MissingFlagResult: a Dependent policy and no result (R95). -/
def modifyFlag (f : Byte) (x : Flag) (policy : FlagPolicy) (result : Option Bool) : Option Byte :=
  match policy with
  | .unmodified => some f
  | .set => some (setFlagBit f x true)
  | .unset => some (setFlagBit f x false)
  | .dependent => result.map fun v => setFlagBit f x v

/-- `modify_flags(F, policy, fr)` (R94): each of the four flags on its own. -/
def modifyFlags (f : Byte) (p : FlagPolicies) (fr : FlagResult) : Option Byte := do
  let f ← modifyFlag f .zero p.zero fr.zero
  let f ← modifyFlag f .subtract p.subtract fr.subtract
  let f ← modifyFlag f .halfCarry p.halfCarry fr.halfCarry
  modifyFlag f .carry p.carry fr.carry

end Sys2Proof.Machine
end

