-- ==== Sys2Proof/Machine/Operands.lean ====
section
/-! DEFINITION. The Operand Resolver (40_execution_core.md R79–R85): four operations on every operand form, nested to any depth.
`none` is InvalidOperandWidth: the descriptor is not valid at that width (R84). -/

namespace Sys2Proof.Machine

/-- A descriptor's fixed width, if it has one (30_encoding.md R61, D13). -/
def Operand.width : Operand → Option OperandWidth
  | .reg8 _ => some .w8
  | .reg16 _ => some .w16
  | .imm8 _ => some .w8
  | .imm16 _ => some .w16
  | .indirect _ => none

/-- `valid16(d)` (R84). -/
def Operand.valid16 : Operand → Bool
  | .reg16 _ => true
  | .imm16 _ => true
  | .reg8 _ => false
  | .imm8 _ => false
  | .indirect inner => inner.valid16

/-- `valid8(d)` (R84): an Indirect asks its inner descriptor for a 16-bit address. -/
def Operand.valid8 : Operand → Bool
  | .reg8 _ => true
  | .imm8 _ => true
  | .reg16 _ => false
  | .imm16 _ => false
  | .indirect inner => inner.valid16

/-- A descriptor's validity at a width (R84). -/
def Operand.validAt (d : Operand) : OperandWidth → Bool
  | .w8 => d.valid8
  | .w16 => d.valid16

/-- `get16(d)` (R82). -/
def get16 (s : State) : Operand → Option Word
  | .reg16 p => some (s.getReg16 p)
  | .imm16 addr => some (Memory.read16 s.mem addr)
  | .indirect inner => (get16 s inner).map fun addr => Memory.read16 s.mem addr
  | .reg8 _ => none
  | .imm8 _ => none

/-- `get8(d)` (R80). -/
def get8 (s : State) : Operand → Option Byte
  | .reg8 r => some (s.getReg8 r)
  | .imm8 addr => some (Memory.read8 s.mem addr)
  | .indirect inner => (get16 s inner).map fun addr => Memory.read8 s.mem addr
  | .reg16 _ => none
  | .imm16 _ => none

/-- `set8(d, v)` (R81): the address of an Indirect is read first. -/
def set8 (s : State) (d : Operand) (v : Byte) : Option State :=
  match d with
  | .reg8 r => some (s.setReg8 r v)
  | .imm8 addr => some { s with mem := Memory.write8 s.mem addr v }
  | .indirect inner => (get16 s inner).map fun addr => { s with mem := Memory.write8 s.mem addr v }
  | .reg16 _ => none
  | .imm16 _ => none

/-- `set16(d, v)` (R83). -/
def set16 (s : State) (d : Operand) (v : Word) : Option State :=
  match d with
  | .reg16 p => some (s.setReg16 p v)
  | .imm16 addr => some { s with mem := Memory.write16 s.mem addr v }
  | .indirect inner => (get16 s inner).map fun addr => { s with mem := Memory.write16 s.mem addr v }
  | .reg8 _ => none
  | .imm8 _ => none

/-- The address a write through the descriptor goes to; a register has none (R81, R83, R85). -/
def storeAddress (s : State) : Operand → Option Word
  | .imm8 addr => some addr
  | .imm16 addr => some addr
  | .indirect inner => get16 s inner
  | .reg8 _ => none
  | .reg16 _ => none

end Sys2Proof.Machine
end

