-- ==== Sys2Proof/Machine/Checks.lean ====
section
/-! DEFINITION. From a table entry to an Instruction (30_encoding.md R57, R64), and the static checks of phase 2 of a step, which
look at the Instruction alone (40_execution_core.md R77, R84, R93; 30_encoding.md R73). -/

namespace Sys2Proof.Machine

/-- An entry's operand with the current pc put in: `wrap16(pc + offset)` (R57, R58, D4). -/
def OperandSlot.resolve (pc : Word) : OperandSlot → Operand
  | .reg8 r => .reg8 r
  | .reg16 p => .reg16 p
  | .imm8 offset => .imm8 (pc + offset)
  | .imm16 offset => .imm16 (pc + offset)
  | .indirect inner => .indirect (inner.resolve pc)

/-- The Instruction of an entry at `pc` (R59, R62). -/
def Entry.descriptor (e : Entry) (pc : Word) : Descriptor where
  src := e.src.map (OperandSlot.resolve pc)
  dst := e.dst.map (OperandSlot.resolve pc)
  kind := e.kind
  length := e.length
  cycles := e.cycles
  policy := e.policy

/-- `decode(opcode, pc)` over a table: the entry whose opcode matches on all eight bits, or none, which is UnimplementedOpcode
(R55, R62, R66). It takes no memory (R64). -/
def decodeWith (table : DecodeTable) (opcode : Byte) (pc : Word) : Option Descriptor :=
  (table.find? fun e => e.opcode == opcode).map fun e => e.descriptor pc

/-- The width of an LD: the source's if it has one, else the destination's (42_load.md R103, R84). -/
def loadWidth (src dst : Operand) : Option OperandWidth :=
  match src.width with
  | some w => some w
  | none => dst.width

/-- `widthValid(I)`: every operand the kind's body uses is present, and every access is valid at its width (R84, D14, D24). -/
def Descriptor.widthValid (i : Descriptor) : Bool :=
  match i.kind, i.src, i.dst with
  | .nop, _, _ => true
  | .ld, some src, some dst =>
    match loadWidth src dst with
    | some w => src.validAt w && dst.validAt w
    | none => false
  | .inc, _, some dst =>
    match dst.width with
    | some w => dst.validAt w
    | none => false
  | .dec, _, some dst =>
    match dst.width with
    | some w => dst.validAt w
    | none => false
  | .add, some src, some dst => dst.valid16 && src.valid16
  | .rxc .left, _, some dst => dst.valid8
  | .rxc .right, _, _ => true
  | _, _, _ => false

/-- The flags a kind's Flag Result gives (R93). RXC(Right) has no body. -/
def OpKind.computes : OpKind → Flag → Bool
  | .nop, _ => false
  | .ld, _ => false
  | .inc, x => x == .zero || x == .halfCarry
  | .dec, x => x == .zero || x == .halfCarry
  | .add, x => x == .zero || x == .halfCarry || x == .carry
  | .rxc .left, x => x == .carry
  | .rxc .right, _ => false

/-- `flagsComputable(I)`: every flag with a Dependent policy is one the kind computes (R93, R95). -/
def Descriptor.flagsComputable (i : Descriptor) : Bool :=
  [Flag.zero, .subtract, .halfCarry, .carry].all fun x => i.policy.get x != .dependent || i.kind.computes x

/-- R73: the checks (W), (F) and (K) on an Instruction. -/
def Descriptor.wellFormed (i : Descriptor) : Bool :=
  i.widthValid && i.flagsComputable && i.kind != .rxc .right

/-- R73 on a table entry. The checks do not look at the immediate's address, so any pc will do. -/
def Entry.wellFormed (e : Entry) : Bool := (e.descriptor 0).wellFormed

end Sys2Proof.Machine
end

