-- ==== Sys2Proof/Machine/Bodies.lean ====
section
/-! DEFINITION. The bodies of the operation kinds, phase 3 of a step (40_execution_core.md R76): every get first, then the one set,
and the Flag Result. `none` stands for a resolver operation on a descriptor of the wrong width, which phase 2 has excluded (R76). -/

namespace Sys2Proof.Machine

/-- NOP: "no operand effects" (41_nop.md R101). -/
def bodyNop (s : State) : Option (State × FlagResult) := some (s, noFlagResult)

/-- LD: the value is copied at the width of R103, and no flag is computed. -/
def bodyLd (src dst : Operand) (s : State) : Option (State × FlagResult) :=
  match loadWidth src dst with
  | some .w8 => do
    let v ← get8 s src
    let s' ← set8 s dst v
    pure (s', noFlagResult)
  | some .w16 => do
    let v ← get16 s src
    let s' ← set16 s dst v
    pure (s', noFlagResult)
  | none => none

/-- `old + 1` or `old - 1`, wrapped, at 8 bits (R108). -/
def step8 : ArithMode → Byte → Byte
  | .add, old => old + 1
  | .subtract, old => old - 1

/-- `old + 1` or `old - 1`, wrapped, at 16 bits (R108). -/
def step16 : ArithMode → Word → Word
  | .add, old => old + 1
  | .subtract, old => old - 1

/-- The Flag Result of INC and DEC: Z from the new value, H from the old value and 1 (R93, R108). -/
def stepFlagResult (isZero halfCarry : Bool) : FlagResult where
  zero := some isZero
  subtract := none
  halfCarry := some halfCarry
  carry := none

/-- INC and DEC at the operand's natural width (43_inc_dec.md R108, R109). -/
def bodyIncDec (mode : ArithMode) (dst : Operand) (s : State) : Option (State × FlagResult) :=
  match dst.width with
  | some .w8 => do
    let old ← get8 s dst
    let s' ← set8 s dst (step8 mode old)
    pure (s', stepFlagResult (step8 mode old == 0) (halfCarry8 mode old 1))
  | some .w16 => do
    let old ← get16 s dst
    let s' ← set16 s dst (step16 mode old)
    pure (s', stepFlagResult (step16 mode old == 0) (halfCarry16 mode old 1))
  | none => none

/-- The Flag Result of ADD over its two pre-addition operands (R93, R113). -/
def addFlagResult (a b : Word) : FlagResult where
  zero := some (a + b == 0)
  subtract := none
  halfCarry := some (halfCarry16 .add a b)
  carry := some (carry16 .add a b)

/-- ADD, at 16 bits (44_add.md R113, D24). -/
def bodyAdd (src dst : Operand) (s : State) : Option (State × FlagResult) := do
  let a ← get16 s dst
  let b ← get16 s src
  let s' ← set16 s dst (a + b)
  pure (s', addFlagResult a b)

/-- `wrap8(old << 1) | old[7]`: the circular rotate to the left (R115). -/
def rotateLeftCircular (old : Byte) : Byte := (old <<< 1) ||| (old >>> 7)

/-- The Flag Result of RXC(Left): the Carry alone, old bit 7 (R93, R115). -/
def rotateFlagResult (old : Byte) : FlagResult where
  zero := none
  subtract := none
  halfCarry := none
  carry := some (old.getLsbD 7)

/-- RXC(Left) (45_rotate.md R115). -/
def bodyRotateLeft (dst : Operand) (s : State) : Option (State × FlagResult) := do
  let old ← get8 s dst
  let s' ← set8 s dst (rotateLeftCircular old)
  pure (s', rotateFlagResult old)

/-- Phase 3: the dispatch on the kind (R76). RXC(Right) has no body (R117), and a missing operand gives none (R84). -/
def execBody (i : Descriptor) (s : State) : Option (State × FlagResult) :=
  match i.kind, i.src, i.dst with
  | .nop, _, _ => bodyNop s
  | .ld, some src, some dst => bodyLd src dst s
  | .inc, _, some dst => bodyIncDec .add dst s
  | .dec, _, some dst => bodyIncDec .subtract dst s
  | .add, some src, some dst => bodyAdd src dst s
  | .rxc .left, _, some dst => bodyRotateLeft dst s
  | _, _, _ => none

end Sys2Proof.Machine
end

