-- ==== Sys2Proof/Machine/Engine.lean ====
section
/-! DEFINITION. The step over any decode table (40_execution_core.md R74, R75): decode, the static checks, the body, and the commit
of the flags and then of PC. All or nothing: every failure leaves the state as it was (R77, R99, D5). -/

namespace Sys2Proof.Machine

/-- Phase 4: the flags by the policy (R94), then PC from its value at step start (R97), and the static cost (R98). `none` from the
policy is MissingFlagResult, which phase 2 has excluded (R95). -/
def commitStep (opcode : Byte) (i : Descriptor) (pc : Word) (s : State) (fr : FlagResult) : StepResult :=
  match modifyFlags s.f i.policy fr with
  | some f => .ok { s with f := f, pc := advancePc pc i.length } i.cycles
  | none => raiseFailure (.missingFlagResult opcode)

/-- Phases 2 to 4 on a decoded Instruction, with the failures in the order of R124. `none` from the body is InvalidOperandWidth,
which phase 2 has excluded (R76). -/
def runDescriptor (opcode : Byte) (i : Descriptor) (s : State) : StepResult :=
  if i.kind = .rxc .right then raiseFailure (.notImplemented opcode)
  else if i.widthValid = false then raiseFailure (.invalidOperandWidth opcode)
  else if i.flagsComputable = false then raiseFailure (.missingFlagResult opcode)
  else
    match execBody i s with
    | some (s', fr) => commitStep opcode i s.pc s' fr
    | none => raiseFailure (.invalidOperandWidth opcode)

/-- One table entry run at the current PC. -/
def runEntry (e : Entry) (s : State) : StepResult := runDescriptor e.opcode (e.descriptor s.pc) s

/-- `step(opcode)` over a decode table (R75). The opcode is the caller's; it is not read from memory (R56). -/
def stepWith (table : DecodeTable) (opcode : Byte) (s : State) : StepResult :=
  match decodeWith table opcode s.pc with
  | some i => runDescriptor opcode i s
  | none => raiseFailure (.unimplementedOpcode opcode)

end Sys2Proof.Machine
end

