-- ==== Sys2Proof/Config.lean ====
section
/-! DEFINITION. The two parameters the spec leaves OPEN (00_scope.md R5): `add16_zero_policy` (92_eei_decisions.md D3) and
`cycle_cost` (D7). The decode table is a function of a `Config`; the values this machine runs with are `Machine.config`
(Machine/Params.lean). There is no other open value: the source uses none of the words "implementation-defined", "unspecified" or
"unpredictable" (93_implementation_defined.md section 1), so no free value is needed. -/

namespace Sys2Proof

/-- `add16_zero_policy`: the Zero-flag policy of ADD HL,BC is one of these two (R5, R114, D3). -/
inductive Add16ZeroPolicy where
  | unmodified
  | dependent
  deriving DecidableEq, Repr

/-- `cycle_cost`: the costs, in clock ticks, of the eight opcodes whose cost the source does not give (R5, D7). -/
structure CycleCosts where
  ldBcA : Nat
  incBc : Nat
  incB : Nat
  decB : Nat
  ldBD8 : Nat
  rlca : Nat
  ldA16Sp : Nat
  addHlBc : Nat
  deriving DecidableEq, Repr

/-- The parameters of one machine. -/
structure Config where
  add16ZeroPolicy : Add16ZeroPolicy
  cycleCost : CycleCosts
  deriving DecidableEq, Repr

end Sys2Proof
end

