-- ==== Sys2Proof/Machine/Params.lean ====
section
/-! DEFINITION. The parameter values this machine runs with: the spec's defaults (00_scope.md R5). -/

namespace Sys2Proof.Machine

/-- The default costs of 70_reset_and_hazards.md R145 (D7, PRESUMED by the spec from general knowledge; notes/assumptions/2.md). -/
def defaultCycleCosts : CycleCosts where
  ldBcA := 8
  incBc := 8
  incB := 4
  decB := 4
  ldBD8 := 8
  rlca := 4
  ldA16Sp := 20
  addHlBc := 8

/-- This machine's parameters: "This spec's declared policy is Unmodified" (44_add.md R114, D3; notes/assumptions/1.md) and the
default costs. A model of the prototype's table would take `.dependent` here. -/
def config : Config where
  add16ZeroPolicy := .unmodified
  cycleCost := defaultCycleCosts

end Sys2Proof.Machine
end

