-- ==== Sys2Proof/Machine/Nop.lean ====
section
/-! DEFINITION. The NOP family (41_nop.md): the table entry (30_encoding.md R62) and the meaning. -/

namespace Sys2Proof.Machine

/-- The all-Unmodified policy (R62). -/
def policyKeep : FlagPolicies where
  zero := .unmodified
  subtract := .unmodified
  halfCarry := .unmodified
  carry := .unmodified

/-- Row 0x00 (R62). The cost 4 is the source's (S2), no parameter. -/
def entryNop (_ : Config) : Entry where
  opcode := 0x00
  src := none
  dst := none
  kind := .nop
  length := .one
  cycles := 4
  policy := policyKeep

/-- `NOP` (R102). -/
def execNop (s : State) : Host.Outcome State Fault Refusal := (runEntry (entryNop config) s).toOutcome

end Sys2Proof.Machine
end

