-- ==== Sys2Proof/Machine/Add.lean ====
section
/-! DEFINITION. The ADD family (44_add.md): the table entry (30_encoding.md R62), whose Zero policy is the parameter
`add16_zero_policy`, and the meaning. -/

namespace Sys2Proof.Machine

/-- The parameter as a flag policy (R114, D3). -/
def zeroPolicy : Add16ZeroPolicy → FlagPolicy
  | .unmodified => .unmodified
  | .dependent => .dependent

/-- Row 0x09's policy (R62, P column). -/
def policyAdd16 (cfg : Config) : FlagPolicies where
  zero := zeroPolicy cfg.add16ZeroPolicy
  subtract := .unset
  halfCarry := .dependent
  carry := .dependent

/-- Row 0x09 (R62). -/
def entryAddHlBc (cfg : Config) : Entry where
  opcode := 0x09
  src := some (.reg16 .bc)
  dst := some (.reg16 .hl)
  kind := .add
  length := .one
  cycles := cfg.cycleCost.addHlBc
  policy := policyAdd16 cfg

/-- `ADD HL,BC` (R114). -/
def execAddHlBc (s : State) : Host.Outcome State Fault Refusal := (runEntry (entryAddHlBc config) s).toOutcome

end Sys2Proof.Machine
end

