-- ==== Sys2Proof/Machine/IncDec.lean ====
section
/-! DEFINITION. The INC/DEC family (43_inc_dec.md): three table entries (30_encoding.md R62) and their meanings. -/

namespace Sys2Proof.Machine

/-- INC's policy at 8 bits: Subtract fixed Unset, Carry untouched (R62, R108). -/
def policyInc8 : FlagPolicies where
  zero := .dependent
  subtract := .unset
  halfCarry := .dependent
  carry := .unmodified

/-- DEC's policy at 8 bits: Subtract fixed Set, Carry untouched (R62, R108). -/
def policyDec8 : FlagPolicies where
  zero := .dependent
  subtract := .set
  halfCarry := .dependent
  carry := .unmodified

/-- Row 0x03 (R62): the 16-bit entry's policy is all Unmodified, as data of the entry (R109). -/
def entryIncBc (cfg : Config) : Entry where
  opcode := 0x03
  src := none
  dst := some (.reg16 .bc)
  kind := .inc
  length := .one
  cycles := cfg.cycleCost.incBc
  policy := policyKeep

/-- Row 0x04 (R62). -/
def entryIncB (cfg : Config) : Entry where
  opcode := 0x04
  src := none
  dst := some (.reg8 .b)
  kind := .inc
  length := .one
  cycles := cfg.cycleCost.incB
  policy := policyInc8

/-- Row 0x05 (R62). -/
def entryDecB (cfg : Config) : Entry where
  opcode := 0x05
  src := none
  dst := some (.reg8 .b)
  kind := .dec
  length := .one
  cycles := cfg.cycleCost.decB
  policy := policyDec8

/-- `INC BC` (R110). -/
def execIncBc (s : State) : Host.Outcome State Fault Refusal := (runEntry (entryIncBc config) s).toOutcome

/-- `INC B` (R111). -/
def execIncB (s : State) : Host.Outcome State Fault Refusal := (runEntry (entryIncB config) s).toOutcome

/-- `DEC B` (R112). -/
def execDecB (s : State) : Host.Outcome State Fault Refusal := (runEntry (entryDecB config) s).toOutcome

end Sys2Proof.Machine
end

