-- ==== Sys2Proof/Machine/Load.lean ====
section
/-! DEFINITION. The LD family (42_load.md): four table entries (30_encoding.md R62) over the one body of R103, and their meanings. -/

namespace Sys2Proof.Machine

/-- Row 0x01 (R62). The cost 12 is the source's (S3), no parameter. -/
def entryLdBcD16 (_ : Config) : Entry where
  opcode := 0x01
  src := some (.imm16 1)
  dst := some (.reg16 .bc)
  kind := .ld
  length := .three
  cycles := 12
  policy := policyKeep

/-- Row 0x02 (R62). -/
def entryLdBcA (cfg : Config) : Entry where
  opcode := 0x02
  src := some (.reg8 .a)
  dst := some (.indirect (.reg16 .bc))
  kind := .ld
  length := .one
  cycles := cfg.cycleCost.ldBcA
  policy := policyKeep

/-- Row 0x06 (R62). -/
def entryLdBD8 (cfg : Config) : Entry where
  opcode := 0x06
  src := some (.imm8 1)
  dst := some (.reg8 .b)
  kind := .ld
  length := .two
  cycles := cfg.cycleCost.ldBD8
  policy := policyKeep

/-- Row 0x08 (R62). -/
def entryLdA16Sp (cfg : Config) : Entry where
  opcode := 0x08
  src := some (.reg16 .sp)
  dst := some (.indirect (.imm16 1))
  kind := .ld
  length := .three
  cycles := cfg.cycleCost.ldA16Sp
  policy := policyKeep

/-- `LD BC,d16` (R104). -/
def execLdBcD16 (s : State) : Host.Outcome State Fault Refusal := (runEntry (entryLdBcD16 config) s).toOutcome

/-- `LD (BC),A` (R105). -/
def execLdBcA (s : State) : Host.Outcome State Fault Refusal := (runEntry (entryLdBcA config) s).toOutcome

/-- `LD B,d8` (R106). -/
def execLdBD8 (s : State) : Host.Outcome State Fault Refusal := (runEntry (entryLdBD8 config) s).toOutcome

/-- `LD (a16),SP` (R107). -/
def execLdA16Sp (s : State) : Host.Outcome State Fault Refusal := (runEntry (entryLdA16Sp config) s).toOutcome

end Sys2Proof.Machine
end

