-- ==== Sys2Proof/Machine/Rotate.lean ====
section
/-! DEFINITION. The rotate (RXC) family (45_rotate.md): the table entry (30_encoding.md R62) and the meaning. No entry has the kind
RXC(Right) (R117). -/

namespace Sys2Proof.Machine

/-- RLCA's policy: Zero, Subtract and HalfCarry forced Unset (R62, R115). -/
def policyRlca : FlagPolicies where
  zero := .unset
  subtract := .unset
  halfCarry := .unset
  carry := .dependent

/-- Row 0x07 (R62): A is the entry's dst (D14). -/
def entryRlca (cfg : Config) : Entry where
  opcode := 0x07
  src := none
  dst := some (.reg8 .a)
  kind := .rxc .left
  length := .one
  cycles := cfg.cycleCost.rlca
  policy := policyRlca

/-- `RLCA` (R116). -/
def execRlca (s : State) : Host.Outcome State Fault Refusal := (runEntry (entryRlca config) s).toOutcome

end Sys2Proof.Machine
end

