-- ==== Sys2Proof/Machine/Table.lean ====
section
/-! DEFINITION. The decode table of 30_encoding.md R62 as data, and the block's entry point `step(opcode)` over it
(40_execution_core.md R74). -/

namespace Sys2Proof.Machine

/-- The ten entries, in the order of R62. -/
def decodeTable (cfg : Config) : DecodeTable :=
  [entryNop cfg, entryLdBcD16 cfg, entryLdBcA cfg, entryIncBc cfg, entryIncB cfg,
   entryDecB cfg, entryLdBD8 cfg, entryRlca cfg, entryLdA16Sp cfg, entryAddHlBc cfg]

/-- The entry of an instruction; the default row has none. -/
def instrEntry (cfg : Config) : Instr → Option Entry
  | .nop => some (entryNop cfg)
  | .ldBcD16 => some (entryLdBcD16 cfg)
  | .ldBcA => some (entryLdBcA cfg)
  | .incBc => some (entryIncBc cfg)
  | .incB => some (entryIncB cfg)
  | .decB => some (entryDecB cfg)
  | .ldBD8 => some (entryLdBD8 cfg)
  | .rlca => some (entryRlca cfg)
  | .ldA16Sp => some (entryLdA16Sp cfg)
  | .addHlBc => some (entryAddHlBc cfg)
  | .unimplementedOpcode _ => none

/-- `step(opcode) -> (cycles, Result)` of R74, with the state made explicit: the block's only entry point. -/
def coreStep (opcode : Byte) (s : State) : StepResult := stepWith (decodeTable config) opcode s

end Sys2Proof.Machine
end

