-- ==== Sys2Proof/Machine/Caller.lean ====
section
/-! DEFINITION. The caller around the block: the fetch of the opcode byte (30_encoding.md R56, D20), the host accesses between two
steps (10_state.md R36, 20_memory.md R49), and the caller loop of 70_reset_and_hazards.md R140. -/

namespace Sys2Proof.Machine

/-- The caller's fetch: "the opcode byte from memory at PC before decode" (R56, R140). -/
def fetchOpcode (s : State) : Byte := Memory.read8 s.mem s.pc

/-- The bytes at PC, as many as the longest instruction has (R54); addresses wrap (R43, D4). -/
def fetchBytes (s : State) : List Byte :=
  [Memory.read8 s.mem s.pc, Memory.read8 s.mem (s.pc + 1), Memory.read8 s.mem (s.pc + 2)]

/-- One write by the host between two steps (R36, R39, R139). -/
inductive HostWrite where
  | reg8 (r : Reg8) (v : Byte)
  | reg16 (p : Reg16) (v : Word)
  | af (v : Word)
  | flag (x : Flag) (v : Bool)
  | flags (v : Byte)
  | pc (v : Word)
  | mem (addr : Word) (v : Byte)
  deriving DecidableEq, Repr

/-- The write's effect: no side effect "beyond the mutated field", and no failure (R28, R36). -/
def hostWrite (s : State) : HostWrite → State
  | .reg8 r v => s.setReg8 r v
  | .reg16 p v => s.setReg16 p v
  | .af v => s.setAF v
  | .flag x v => s.setFlag x v
  | .flags v => s.setFlags v
  | .pc v => { s with pc := v }
  | .mem addr v => { s with mem := Memory.write8 s.mem addr v }

/-- A program put into memory by the host before a run (R139), byte by byte from `addr`, wrapping. -/
def loadBytes (s : State) (addr : Word) : List Byte → State
  | [] => s
  | v :: rest => loadBytes (hostWrite s (.mem addr v)) (addr + 1) rest

/-- How a run ends (R140): the end state, the total of the cycle costs, and the failure if a step failed. -/
structure RunResult where
  final : State
  total : Nat
  failed : Option Fault
  deriving DecidableEq, Repr

/-- `run(n)` of R140 from a running total: at most `n` steps, each on the byte at PC, ending at the first failure. -/
def runFrom (total : Nat) : Nat → State → RunResult
  | 0, s => ⟨s, total, none⟩
  | n + 1, s =>
    match coreStep (fetchOpcode s) s with
    | .ok s' cycles => runFrom (total + cycles) n s'
    | .fail failure => ⟨s, total, some failure⟩

/-- `run(n)` of R140. -/
def runCaller (n : Nat) (s : State) : RunResult := runFrom 0 n s

end Sys2Proof.Machine
end

