-- ==== Sys2Proof/Machine/Unimplemented.lean ====
section
/-! DEFINITION. The default row of the opcode table: an opcode outside 0x00–0x09. -/

namespace Sys2Proof.Machine

/-- The step fails with `UnimplementedOpcode(opcode)` and changes nothing (30_encoding.md R66, 60_exceptions.md R119, R125). -/
def execUnimplementedOpcode (opcode : Byte) (_ : State) : Host.Outcome State Fault Refusal :=
  (raiseFailure (.unimplementedOpcode opcode)).toOutcome

end Sys2Proof.Machine
end

