-- ==== Sys2Proof/Machine/Dispatch.lean ====
section
/-! DEFINITION. One arm per instruction: each calls its own meaning. -/

namespace Sys2Proof.Machine

def exec (i : Instr) (s : State) : Host.Outcome State Fault Refusal :=
  match i with
  | .nop => Sys2Proof.Machine.execNop s
  | .ldBcD16 => Sys2Proof.Machine.execLdBcD16 s
  | .ldBcA => Sys2Proof.Machine.execLdBcA s
  | .incBc => Sys2Proof.Machine.execIncBc s
  | .incB => Sys2Proof.Machine.execIncB s
  | .decB => Sys2Proof.Machine.execDecB s
  | .ldBD8 => Sys2Proof.Machine.execLdBD8 s
  | .rlca => Sys2Proof.Machine.execRlca s
  | .ldA16Sp => Sys2Proof.Machine.execLdA16Sp s
  | .addHlBc => Sys2Proof.Machine.execAddHlBc s
  | .unimplementedOpcode opcode => Sys2Proof.Machine.execUnimplementedOpcode opcode s

end Sys2Proof.Machine
end

