-- ==== Sys2Proof/Machine/Step.lean ====
section
/-! DEFINITION. One step of the machine as the host's interface takes it: the caller's fetch at PC and the block's step on that
byte (70_reset_and_hazards.md R140; notes/assumptions/3.md). `coreStep` is the block's step on any byte, with its cycle cost. -/

namespace Sys2Proof.Machine

/-- Fetch, decode, execute. The instruction's own meaning advances PC (R97). -/
def step (s : State) : Host.Outcome State Fault Refusal :=
  exec (decodeOpcode (fetchOpcode s)) s

/-- The state with the table word's three bytes at PC, where the next step fetches. -/
def State.withFetchWord (s : State) (nbits w : Nat) : State :=
  loadBytes s s.pc (tableWordBytes nbits w)

end Sys2Proof.Machine
end

