-- ==== Sys2Proof/Safety.lean ====
section
/-! DEFINITION. The terms claims use: the invariant of the state, reachability, and what each instruction may write. -/

namespace Sys2Proof.Machine

/-- The invariant: the memory is in its canonical form, and the flags byte's low nibble is zero (10_state.md R21). -/
def State.Inv (s : State) : Prop := Memory.wf s.mem = true ∧ s.f &&& 0x0F = 0

/-- The states of one session (R35): reset, then any steps and host writes in any order. -/
inductive Reachable : State → Prop where
  | reset : Reachable State.reset
  | step (opcode : Byte) {s s' : State} {cycles : Nat} : Reachable s → coreStep opcode s = .ok s' cycles → Reachable s'
  | host (w : HostWrite) {s : State} : Reachable s → Reachable (hostWrite s w)

/-- The opcode at PC has a table entry: the next step does not fail (R66, R73). -/
def State.decodes (s : State) : Prop := (fetchOpcode s).toNat < 0x0A

/-- The caller loop runs `n` steps from `s` with no failure (R140). -/
def SafeRun (n : Nat) (s : State) : Prop := (runCaller n s).failed = none

/-- The 8-bit registers an instruction writes, from the table of 10_state.md R27. -/
def writesReg : Instr → Reg8 → Prop
  | .ldBcD16, r => r = .b ∨ r = .c
  | .incBc, r => r = .b ∨ r = .c
  | .incB, r => r = .b
  | .decB, r => r = .b
  | .ldBD8, r => r = .b
  | .rlca, r => r = .a
  | .addHlBc, r => r = .h ∨ r = .l
  | .nop, _ => False
  | .ldBcA, _ => False
  | .ldA16Sp, _ => False
  | .unimplementedOpcode _, _ => False

/-- The flags an instruction writes, from the table of R27: F.Z of ADD HL,BC only under the Dependent policy. -/
def writesFlag (cfg : Config) : Instr → Flag → Prop
  | .incB, x => x = .zero ∨ x = .subtract ∨ x = .halfCarry
  | .decB, x => x = .zero ∨ x = .subtract ∨ x = .halfCarry
  | .rlca, _ => True
  | .addHlBc, x => x = .subtract ∨ x = .halfCarry ∨ x = .carry ∨ (x = .zero ∧ cfg.add16ZeroPolicy = .dependent)
  | .nop, _ => False
  | .ldBcD16, _ => False
  | .ldBcA, _ => False
  | .incBc, _ => False
  | .ldBD8, _ => False
  | .ldA16Sp, _ => False
  | .unimplementedOpcode _, _ => False

/-- The two states agree on everything but the flags byte. -/
def sameButFlags (s t : State) : Prop := { t with f := s.f } = s

/-- The two states agree on everything but D and E. -/
def sameButDE (s t : State) : Prop := { t with d := s.d, e := s.e } = s

/-- Bits 3..0 of F are as they were. -/
def lowNibbleKept (s t : State) : Prop := ∀ j, j < 4 → t.f.getLsbD j = s.f.getLsbD j

/-- An instruction's meaning `n` times in a row, ending at the first failure. -/
def execTimes (i : Instr) : Nat → State → Host.Outcome State Fault Refusal
  | 0, s => .next s
  | n + 1, s =>
    match exec i s with
    | .next s' => execTimes i n s'
    | .fault r => .fault r
    | .refused r => .refused r

/-- The immediate bytes a table operand places after the opcode (92_eei_decisions.md D8). -/
def immediateBytes : OperandSlot → Nat
  | .reg8 _ => 0
  | .reg16 _ => 0
  | .imm8 _ => 1
  | .imm16 _ => 2
  | .indirect inner => immediateBytes inner

/-- The failure of the first phase-2 check that an Instruction does not pass, in the order of 60_exceptions.md R124. -/
def firstStaticFailure (opcode : Byte) (i : Descriptor) : Option Fault :=
  if i.kind = .rxc .right then some (.notImplemented opcode)
  else if i.widthValid = false then some (.invalidOperandWidth opcode)
  else if i.flagsComputable = false then some (.missingFlagResult opcode)
  else none

end Sys2Proof.Machine
end

