-- ==== Sys2Proof/Certificates/Slice0/Obligations.lean ====
section
/-! DEFINITION. The statements about the model. Each docstring names the rule of spec/ it formalises, or what it rests on where the
spec marks the point as its own decision (D<n> of 92_eei_decisions.md; the log entries are notes/assumptions/<n>.md). -/

open Sys2Proof Sys2Proof.Machine

/-! ## Encoding -/

/-- Decoding the bytes of a well-formed instruction gives it back, with every immediate value, and leaves the bytes after it
(R54, R58, R62). The default row keeps its opcode. -/
def Obligations.DecodeOfEncodeIsTheInstruction : Prop :=
  ∀ (a : AsmInstr) (rest : List Byte), a.wf = true → decode (encode a ++ rest) = .ok (a, rest)

/-- What the decoder reads is well-formed, and its encoding is exactly the bytes it was read from. -/
def Obligations.EncodeOfDecodeIsTheBytes : Prop :=
  ∀ (bytes : List Byte) (a : AsmInstr) (rest : List Byte), decode bytes = .ok (a, rest) →
    a.wf = true ∧ encode a ++ rest = bytes

/-- The words of all ten rows, written out from the `encoding` column of spec/opcode_table.json, decode to their instructions (R62),
and 0xCB decodes to the default row. The opcode values 0x03, 0x06 and 0x08 are the spec's decision D9 and the lengths but those of
0x00 and 0x01 its decision D8 (log entry 13); that the default row is a constructor one byte long is the model's choice (log
entry 11). -/
def Obligations.TableWordsDecodeToTheirInstructions : Prop :=
  decode [0b00000000] = .ok (⟨.nop, .none⟩, []) ∧
  decode [0b00000001, 0x34, 0x12] = .ok (⟨.ldBcD16, .d16 0x1234⟩, []) ∧
  decode [0b00000010] = .ok (⟨.ldBcA, .none⟩, []) ∧
  decode [0b00000011] = .ok (⟨.incBc, .none⟩, []) ∧
  decode [0b00000100] = .ok (⟨.incB, .none⟩, []) ∧
  decode [0b00000101] = .ok (⟨.decB, .none⟩, []) ∧
  decode [0b00000110, 0x7F] = .ok (⟨.ldBD8, .d8 0x7F⟩, []) ∧
  decode [0b00000111] = .ok (⟨.rlca, .none⟩, []) ∧
  decode [0b00001000, 0x00, 0xC0] = .ok (⟨.ldA16Sp, .d16 0xC000⟩, []) ∧
  decode [0b00001001] = .ok (⟨.addHlBc, .none⟩, []) ∧
  decode [0b11001011] = .ok (⟨.unimplementedOpcode 0xCB, .none⟩, [])

/-- When the bytes at PC decode to an instruction, the step runs that instruction's meaning on the state as it is: the step adds
nothing, and the meaning itself advances PC (R75, R140; log entry 3). -/
def Obligations.StepRunsTheDecodedInstruction : Prop :=
  ∀ (s : State) (a : AsmInstr) (rest : List Byte), decode (fetchBytes s) = .ok (a, rest) →
    a.instr.wf = true ∧ step s = exec a.instr s

/-- A word of the opcode table put at PC by `withFetchWord` is the instruction the very next step runs, wherever PC stands
(R54, R56, D4). -/
def Obligations.ATableWordAtPcIsWhatTheNextStepRuns : Prop :=
  ∀ (s : State) (nbits w : Nat) (i : Instr), decodeTableWord nbits w = some i →
    step (s.withFetchWord nbits w) = exec i (s.withFetchWord nbits w)

/-- Two instructions with one spelling have one opcode, unless both are the default row: "Each mnemonic of rule R70 names exactly
one table entry" (R71; three spellings are D25). -/
def Obligations.EachSpellingNamesOneInstruction : Prop :=
  ∀ i j : Instr, i.spelling = j.spelling →
    i = j ∨ (i = .unimplementedOpcode i.opcode ∧ j = .unimplementedOpcode j.opcode)

/-- The operand resolver reads, at `wrap16(pc+1)`, the immediate that the decoder of bytes reads at PC (R58). -/
def Obligations.ResolverReadsTheDecodedImmediate : Prop :=
  ∀ (s : State) (i : Instr) (rest : List Byte),
    (∀ v, decode (fetchBytes s) = .ok (⟨i, .d8 v⟩, rest) → get8 s (.imm8 (s.pc + 1)) = some v) ∧
    (∀ v, decode (fetchBytes s) = .ok (⟨i, .d16 v⟩, rest) → get16 s (.imm16 (s.pc + 1)) = some v)

/-- The per-instruction meanings and the block's table-driven step are the same machine: for every opcode byte and state, the
meaning of the decoded instruction answers what `step(opcode)` over the decode table answers (R62, R69, R75, R76). -/
def Obligations.MeaningsAgreeWithTheTableDrivenStep : Prop :=
  ∀ (opcode : Byte) (s : State), exec (decodeOpcode opcode) s = (coreStep opcode s).toOutcome

/-! ## The ten instructions: completion, result, frame and cost -/

/-- NOP only advances PC, and costs 4 (R101, R102; the wrap at 0xFFFF is D4). -/
def Obligations.NopOnlyAdvancesPc : Prop :=
  ∀ s : State, exec .nop s = .next { s with pc := s.pc + 1 } ∧ coreStep 0x00 s = .ok { s with pc := s.pc + 1 } 4

/-- LD BC,d16 loads B and C from the two bytes after the opcode, low byte first, and costs 12 (R104; address wrap D4). -/
def Obligations.LoadBcImmediateResult : Prop :=
  ∀ s : State, ∃ t, exec .ldBcD16 s = .next t ∧ coreStep 0x01 s = .ok t 12 ∧
    t = { s with b := Memory.read8 s.mem (s.pc + 2), c := Memory.read8 s.mem (s.pc + 1), pc := s.pc + 3 }

/-- LD (BC),A stores A at BC and changes no other byte, no register but PC, and no flag (R105; its length is D8, its cost the
parameter of D7, log entry 2). -/
def Obligations.StoreAToBcResult : Prop :=
  ∀ s : State, ∃ t, exec .ldBcA s = .next t ∧ coreStep 0x02 s = .ok t config.cycleCost.ldBcA ∧
    t = { s with pc := s.pc + 1, mem := t.mem } ∧
    ∀ addr, storeAddress s (.indirect (.reg16 .bc)) = some addr →
      addr = joinBytes s.b s.c ∧ Memory.read8 t.mem addr = s.a ∧
      ∀ x, x ≠ addr → Memory.read8 t.mem x = Memory.read8 s.mem x

/-- INC BC adds 1 to the 16-bit value B:C, wrapping, and changes nothing else but PC: no flag, whatever the result (R109, R110;
opcode D9, length D8, cost D7). -/
def Obligations.IncBcResult : Prop :=
  ∀ s : State, ∃ t, exec .incBc s = .next t ∧ coreStep 0x03 s = .ok t config.cycleCost.incBc ∧
    t = { s with b := t.b, c := t.c, pc := s.pc + 1 } ∧
    t.b.toNat * 256 + t.c.toNat = (s.b.toNat * 256 + s.c.toNat + 1) % 65536

/-- INC B: the wrapped sum, Z from the result, N cleared, H the carry out of bit 3, C and the rest untouched (R111; length D8,
cost D7). -/
def Obligations.IncBResult : Prop :=
  ∀ s : State, ∃ t, exec .incB s = .next t ∧ coreStep 0x04 s = .ok t config.cycleCost.incB ∧
    t = { s with b := t.b, f := t.f, pc := s.pc + 1 } ∧ lowNibbleKept s t ∧
    t.b.toNat = (s.b.toNat + 1) % 256 ∧
    t.getFlag .zero = decide (t.b.toNat = 0) ∧
    t.getFlag .subtract = false ∧
    t.getFlag .halfCarry = decide (s.b.toNat % 16 + 1 ≥ 16) ∧
    t.getFlag .carry = s.getFlag .carry

/-- DEC B: the wrapped difference, Z from the result, N set, H the borrow into bit 3, C and the rest untouched (R112; length D8,
cost D7). -/
def Obligations.DecBResult : Prop :=
  ∀ s : State, ∃ t, exec .decB s = .next t ∧ coreStep 0x05 s = .ok t config.cycleCost.decB ∧
    t = { s with b := t.b, f := t.f, pc := s.pc + 1 } ∧ lowNibbleKept s t ∧
    (t.b.toNat : Int) = ((s.b.toNat : Int) - 1) % 256 ∧
    t.getFlag .zero = decide (t.b.toNat = 0) ∧
    t.getFlag .subtract = true ∧
    t.getFlag .halfCarry = decide (s.b.toNat % 16 < 1) ∧
    t.getFlag .carry = s.getFlag .carry

/-- LD B,d8 loads B from the byte after the opcode; a loaded 0 sets no flag (R106; opcode D9, length D8, cost D7). -/
def Obligations.LoadBImmediateResult : Prop :=
  ∀ s : State, ∃ t, exec .ldBD8 s = .next t ∧ coreStep 0x06 s = .ok t config.cycleCost.ldBD8 ∧
    t = { s with b := Memory.read8 s.mem (s.pc + 1), pc := s.pc + 2 }

/-- RLCA moves each bit of A one place up and bit 7 to bit 0 and to Carry, and forces Z, N and H to false (R115, R116; length D8,
cost D7, operand D14). -/
def Obligations.RlcaResult : Prop :=
  ∀ s : State, ∃ t, exec .rlca s = .next t ∧ coreStep 0x07 s = .ok t config.cycleCost.rlca ∧
    t = { s with a := t.a, f := t.f, pc := s.pc + 1 } ∧ lowNibbleKept s t ∧
    (∀ j, j < 8 → t.a.getLsbD ((j + 1) % 8) = s.a.getLsbD j) ∧
    t.getFlag .zero = false ∧ t.getFlag .subtract = false ∧ t.getFlag .halfCarry = false ∧
    t.getFlag .carry = s.a.getLsbD 7

/-- LD (a16),SP stores SP, low byte first, at the address that the two bytes after the opcode held BEFORE the store, also where
the store falls on those bytes and where its second byte wraps to 0x0000; nothing else changes but PC (R107, R143; opcode D9,
length D8, cost D7, wrap D4). -/
def Obligations.StoreSpResult : Prop :=
  ∀ s : State, ∃ t, exec .ldA16Sp s = .next t ∧ coreStep 0x08 s = .ok t config.cycleCost.ldA16Sp ∧
    t = { s with pc := s.pc + 3, mem := t.mem } ∧
    ∀ addr, storeAddress s (.indirect (.imm16 (s.pc + 1))) = some addr →
      addr = joinBytes (Memory.read8 s.mem (s.pc + 2)) (Memory.read8 s.mem (s.pc + 1)) ∧
      (Memory.read8 t.mem addr).toNat = s.sp.toNat % 256 ∧
      (Memory.read8 t.mem (addr + 1)).toNat = s.sp.toNat / 256 ∧
      ∀ x, x ≠ addr → x ≠ addr + 1 → Memory.read8 t.mem x = Memory.read8 s.mem x

/-- ADD HL,BC: the wrapped 16-bit sum, N cleared, H the carry out of bit 11, C the carry out of bit 15, BC and the rest untouched.
Z is the result's only where this machine's `add16_zero_policy` is Dependent and is kept otherwise: the statement holds for either
value of the parameter (R113, R114; D3, log entry 1; length D8, cost D7). -/
def Obligations.AddHlBcResult : Prop :=
  ∀ s : State, ∃ t, exec .addHlBc s = .next t ∧ coreStep 0x09 s = .ok t config.cycleCost.addHlBc ∧
    t = { s with h := t.h, l := t.l, f := t.f, pc := s.pc + 1 } ∧ lowNibbleKept s t ∧
    t.h.toNat * 256 + t.l.toNat = (s.h.toNat * 256 + s.l.toNat + (s.b.toNat * 256 + s.c.toNat)) % 65536 ∧
    t.getFlag .zero = (match config.add16ZeroPolicy with
      | .unmodified => s.getFlag .zero
      | .dependent => decide (t.h.toNat * 256 + t.l.toNat = 0)) ∧
    t.getFlag .subtract = false ∧
    t.getFlag .halfCarry =
      decide ((s.h.toNat % 16 * 256 + s.l.toNat) + (s.b.toNat % 16 * 256 + s.c.toNat) ≥ 0x1000) ∧
    t.getFlag .carry = decide ((s.h.toNat * 256 + s.l.toNat) + (s.b.toNat * 256 + s.c.toNat) > 0xFFFF)

/-- The same under BOTH values of `add16_zero_policy`, over the decode table of any configuration: with Dependent, Z is the wrapped
sum's; with Unmodified, Z is kept; nothing but Z depends on the choice (R114, D3). -/
def Obligations.AddHlBcZeroFlagUnderEachPolicy : Prop :=
  ∀ (cfg : Config) (s : State), ∃ t, stepWith (decodeTable cfg) 0x09 s = .ok t cfg.cycleCost.addHlBc ∧
    t.getFlag .zero = (match cfg.add16ZeroPolicy with
      | .unmodified => s.getFlag .zero
      | .dependent => decide (t.h.toNat * 256 + t.l.toNat = 0)) ∧
    ∀ (cfg' : Config) (t' : State) (n' : Nat), stepWith (decodeTable cfg') 0x09 s = .ok t' n' →
      t' = { t with f := t'.f } ∧ ∀ x, x ≠ Flag.zero → t'.getFlag x = t.getFlag x

/-- Eight RLCAs in a row complete and return A to its start value (R116). -/
def Obligations.EightRlcasRestoreA : Prop :=
  ∀ s : State, ∃ t, execTimes .rlca 8 s = .next t ∧ t.a = s.a ∧ t.pc = s.pc + 8

/-! ## Failures -/

/-- An opcode fails exactly when it is outside 0x00–0x09, in every state, with UnimplementedOpcode carrying that opcode; the meaning
answers the fault and the state after the step is the state before it (R66, R119). That no opcode inside fails is the spec's own
inference (R73, marked derived); the clauses about the default row rest on log entry 11. -/
def Obligations.OpcodesOutsideTheTableFailAndChangeNothing : Prop :=
  ∀ (opcode : Byte) (s : State) (failure : Fault),
    (coreStep opcode s = .fail failure ↔ 0x0A ≤ opcode.toNat ∧ failure = .unimplementedOpcode opcode) ∧
    (0x0A ≤ opcode.toNat →
      decodeOpcode opcode = .unimplementedOpcode opcode ∧
      exec (.unimplementedOpcode opcode) s = .fault (.unimplementedOpcode opcode) ∧
      (coreStep opcode s).stateAfter s = s)

/-- The static checks decide every failure of phase 2, on any Instruction, in table or not: one that fails a check fails in every
state with the first failing check's failure and changes nothing, and one that passes completes in every state with its static
cost, its bodies and its flag policy never failing (R75–R77, R84, R95, R98, R99, R124). The unchanged state is the spec's decision
D5 (log entry 8), the order of the checks its decision D17 (log entry 13). -/
def Obligations.StaticChecksDecideEveryFailure : Prop :=
  ∀ (opcode : Byte) (i : Descriptor) (s : State),
    match firstStaticFailure opcode i with
    | some failure => runDescriptor opcode i s = .fail failure ∧ (runDescriptor opcode i s).stateAfter s = s
    | none => ∃ t, runDescriptor opcode i s = .ok t i.cycles ∧ t.pc = advancePc s.pc i.length

/-- RXC(Right) fails with NotImplemented in every state and writes nothing; nothing else fails so: an Instruction that fails with
NotImplemented has that kind, and a step over any table that does ran an entry of that table, on its opcode, with that kind. No
entry of this table has it, and 0x0F (RRCA) fails at decode (R117). That NotImplemented comes before an invalid width is the spec's
decision D17, that it carries the opcode D16 (log entry 13), and the unchanged state D5 (log entry 8). -/
def Obligations.RotateRightIsNotImplemented : Prop :=
  (∀ (opcode : Byte) (i : Descriptor) (s : State), i.kind = .rxc .right →
    runDescriptor opcode i s = .fail (.notImplemented opcode) ∧ (runDescriptor opcode i s).stateAfter s = s) ∧
  (∀ (opcode carried : Byte) (i : Descriptor) (s : State), runDescriptor opcode i s = .fail (.notImplemented carried) →
    i.kind = .rxc .right ∧ carried = opcode) ∧
  (∀ (table : DecodeTable) (opcode carried : Byte) (s : State), stepWith table opcode s = .fail (.notImplemented carried) →
    ∃ e ∈ table, e.opcode = opcode ∧ e.kind = .rxc .right) ∧
  (∀ (cfg : Config) (e : Entry), e ∈ decodeTable cfg → e.kind ≠ .rxc .right) ∧
  (∀ s : State, coreStep 0x0F s = .fail (.unimplementedOpcode 0x0F))

/-- A fifth failure does not exist, each failure carries the opcode of its step, and the codes are 1 to 4 (R118, D16). -/
def Obligations.EveryFailureCarriesItsOpcode : Prop :=
  ∀ (table : DecodeTable) (opcode : Byte) (s : State) (failure : Fault), stepWith table opcode s = .fail failure →
    failure.opcode = opcode ∧ 1 ≤ failure.code ∧ failure.code ≤ 4 ∧
    (failure.code = 1 ↔ ∀ e ∈ table, e.opcode ≠ opcode)

/-- Every entry of the table passes the checks (W), (F) and (K) of R73 at every pc and under every configuration, and its length is
1 plus the immediate bytes its operands place (R73, D8). -/
def Obligations.EveryTableEntryIsWellFormed : Prop :=
  ∀ (cfg : Config) (e : Entry), e ∈ decodeTable cfg →
    (∀ pc, (e.descriptor pc).wellFormed = true) ∧
    e.length.toNat = 1 + (e.src.map immediateBytes).getD 0 + (e.dst.map immediateBytes).getD 0

/-- Every entry of the table, under every configuration, completes in every state: PC goes on by the entry's length, and the
entry's static cost is returned whatever the state holds (R97, R98; the wrap of PC is D4). -/
def Obligations.EveryDecodedStepAdvancesPcAndReportsItsStaticCost : Prop :=
  ∀ (cfg : Config) (e : Entry), e ∈ decodeTable cfg →
    ∀ s : State, ∃ t, stepWith (decodeTable cfg) e.opcode s = .ok t e.cycles ∧
      t.pc = s.pc + BitVec.ofNat 16 e.length.toNat

/-! ## Frames and whole-machine rules -/

/-- An instruction changes no 8-bit register but those of R27's table, and never SP (R26, R27). -/
def Obligations.RegistersOutsideTheWriteTableAreKept : Prop :=
  ∀ (i : Instr) (s t : State), exec i s = .next t →
    t.sp = s.sp ∧ ∀ r, ¬ writesReg i r → t.getReg8 r = s.getReg8 r

/-- An instruction changes no flag but those of R27's table, and never bits 3..0 of F (R24, R27, R94). -/
def Obligations.FlagsOutsideTheWriteTableAreKept : Prop :=
  ∀ (i : Instr) (s t : State), exec i s = .next t →
    lowNibbleKept s t ∧ ∀ x, ¬ writesFlag config i x → t.getFlag x = s.getFlag x

/-- The instructions that store nothing leave every byte of memory as it was: all but LD (BC),A and LD (a16),SP (R44). -/
def Obligations.InstructionsThatStoreNothingKeepMemory : Prop :=
  ∀ (i : Instr) (s t : State), i ≠ .ldBcA → i ≠ .ldA16Sp → exec i s = .next t →
    ∀ addr, Memory.read8 t.mem addr = Memory.read8 s.mem addr

/-- No instruction reads a flag: from states that differ only in F, an instruction reaches states that differ at most in F, and
each flag it writes gets the same value (R24). -/
def Obligations.NoInstructionReadsAFlag : Prop :=
  ∀ (i : Instr) (s t : State) (f : Byte), exec i s = .next t →
    ∃ t', exec i { s with f := f } = .next t' ∧ sameButFlags t t' ∧
      ∀ x, writesFlag config i x → t'.getFlag x = t.getFlag x

/-- D and E are read and written by no instruction: what stands in them changes nothing else, and they stay (R27). -/
def Obligations.NoInstructionReadsOrWritesDAndE : Prop :=
  ∀ (i : Instr) (s t : State) (d e : Byte), exec i s = .next t →
    t.d = s.d ∧ t.e = s.e ∧ exec i { s with d := d, e := e } = .next { t with d := d, e := e }

/-- The core never reads the opcode's own byte from memory: with another byte at PC, the step on the same passed opcode succeeds
with the same registers and cost, and each byte of memory but that one comes out the same (R44, R56). -/
def Obligations.TheCoreNeverReadsTheOpcodeByte : Prop :=
  ∀ (opcode : Byte) (s t : State) (n : Nat) (v : Byte), coreStep opcode s = .ok t n →
    ∃ t', coreStep opcode { s with mem := Memory.write8 s.mem s.pc v } = .ok t' n ∧
      t' = { t with mem := t'.mem } ∧ ∀ addr, addr ≠ s.pc → Memory.read8 t'.mem addr = Memory.read8 t.mem addr

/-- A store is seen by the next fetch: LD (BC),A with BC at the next instruction makes A the next opcode (R53, R142). -/
def Obligations.AStoreIsSeenByTheNextFetch : Prop :=
  ∀ s : State, joinBytes s.b s.c = s.pc + 1 → ∃ t, exec .ldBcA s = .next t ∧ fetchOpcode t = s.a ∧
    step t = exec (decodeOpcode s.a) t

/-! ## Kind bodies over any operand -/

/-- The NOP body makes no get and no set, and returns an empty Flag Result; the only effect of a NOP step is the common PC advance
(R101). -/
def Obligations.NopBodyHasNoOperandEffects : Prop :=
  ∀ (i : Descriptor) (s : State), i.kind = .nop → execBody i s = some (s, ⟨none, none, none, none⟩) ∧
    ∀ (opcode : Byte) (t : State) (n : Nat), runDescriptor opcode i s = .ok t n →
      (∀ x, i.policy.get x = .unmodified) → t = { s with pc := advancePc s.pc i.length }

/-- The LD body over any operands it is valid on: the width is the source's, or else the destination's; the value read from the
source before the write is the value written; no flag is computed (R103). -/
def Obligations.LoadBodyCopiesAtTheSourceWidth : Prop :=
  ∀ (i : Descriptor) (src dst : Operand) (s : State),
    i.kind = .ld → i.src = some src → i.dst = some dst → i.widthValid = true →
    (src.width.or dst.width = some .w8 →
      ∃ v s', get8 s src = some v ∧ set8 s dst v = some s' ∧ execBody i s = some (s', ⟨none, none, none, none⟩)) ∧
    (src.width.or dst.width = some .w16 →
      ∃ v s', get16 s src = some v ∧ set16 s dst v = some s' ∧ execBody i s = some (s', ⟨none, none, none, none⟩)) ∧
    src.width.or dst.width ≠ none

/-- INC and DEC at both widths, on any operand they are valid on: the wrapped result is written back, Z tells whether it is zero,
H is the half-carry or the borrow of the old value and 1, and N and C are not computed (R108, R109; D14). -/
def Obligations.IncDecBodiesAtBothWidths : Prop :=
  ∀ (i : Descriptor) (dst : Operand) (s : State), i.dst = some dst → i.widthValid = true →
    (i.kind = .inc → dst.width = some .w8 → ∃ old new s', get8 s dst = some old ∧ set8 s dst new = some s' ∧
      new.toNat = (old.toNat + 1) % 256 ∧
      execBody i s = some (s', ⟨some (decide (new.toNat = 0)), none, some (decide (old.toNat % 16 = 15)), none⟩)) ∧
    (i.kind = .dec → dst.width = some .w8 → ∃ old new s', get8 s dst = some old ∧ set8 s dst new = some s' ∧
      new.toNat = (old.toNat + 255) % 256 ∧
      execBody i s = some (s', ⟨some (decide (new.toNat = 0)), none, some (decide (old.toNat % 16 = 0)), none⟩)) ∧
    (i.kind = .inc → dst.width = some .w16 → ∃ old new s', get16 s dst = some old ∧ set16 s dst new = some s' ∧
      new.toNat = (old.toNat + 1) % 65536 ∧
      execBody i s = some (s', ⟨some (decide (new.toNat = 0)), none, some (decide (old.toNat % 4096 = 4095)), none⟩)) ∧
    (i.kind = .dec → dst.width = some .w16 → ∃ old new s', get16 s dst = some old ∧ set16 s dst new = some s' ∧
      new.toNat = (old.toNat + 65535) % 65536 ∧
      execBody i s = some (s', ⟨some (decide (new.toNat = 0)), none, some (decide (old.toNat % 4096 = 0)), none⟩))

/-- The ADD body on any 16-bit operands: the wrapped sum of the two values read before the write goes to the destination; Z is
computed on the wrapped sum, H and C on the two pre-addition operands, and N not at all (R113). -/
def Obligations.AddBodySumsSixteenBitOperands : Prop :=
  ∀ (i : Descriptor) (src dst : Operand) (s : State),
    i.kind = .add → i.src = some src → i.dst = some dst → i.widthValid = true →
    ∃ a b sum s', get16 s dst = some a ∧ get16 s src = some b ∧ sum.toNat = (a.toNat + b.toNat) % 65536 ∧
      set16 s dst sum = some s' ∧
      execBody i s = some (s', ⟨some (decide (sum.toNat = 0)), none,
        some (decide (a.toNat % 4096 + b.toNat % 4096 ≥ 0x1000)), some (decide (a.toNat + b.toNat > 0xFFFF))⟩)

/-! ## Flags -/

/-- The 8-bit predicates and the 16-bit Add predicates over unsigned operands in the unbounded integers (R89, R90, R91). -/
def Obligations.FlagPredicatesCompareInTheIntegers : Prop :=
  (∀ a b : Byte,
    addCarry8 a b = decide (a.toNat + b.toNat > 255) ∧
    addHalfCarry8 a b = decide (a.toNat % 16 + b.toNat % 16 ≥ 0x10) ∧
    subCarry8 a b = decide (b.toNat > a.toNat) ∧
    subHalfCarry8 a b = decide (a.toNat % 16 < b.toNat % 16)) ∧
  (∀ a b : Word,
    addCarry16 a b = decide (a.toNat + b.toNat > 0xFFFF) ∧
    addHalfCarry16 a b = decide (a.toNat % 4096 + b.toNat % 4096 ≥ 0x1000))

/-- The half-carry of an addition is the carry that enters bit 4 (bit 12 at 16 bits), and that of a subtraction the borrow that bit
4 (bit 12) gives: in each case the bit where the result differs from the carry-less sum; the carry of a subtraction is the
borrow out of the top bit (R12, R88–R92, C1, C2; the 16-bit subtract forms are D23). -/
def Obligations.HalfCarryIsTheCarryIntoTheUpperPart : Prop :=
  (∀ a b : Byte,
    addHalfCarry8 a b = (a ^^^ b ^^^ (a + b)).getLsbD 4 ∧ subHalfCarry8 a b = (a ^^^ b ^^^ (a - b)).getLsbD 4) ∧
  (∀ a b : Word,
    addHalfCarry16 a b = (a ^^^ b ^^^ (a + b)).getLsbD 12 ∧ subHalfCarry16 a b = (a ^^^ b ^^^ (a - b)).getLsbD 12 ∧
    (subCarry16 a b = true ↔ (a - b).toNat ≠ (a.toNat : Int) - b.toNat))

/-- `modify_flags` updates each flag by its own policy and touches no other bit of F; it fails exactly when some Dependent flag
has no result (R94, R95). -/
def Obligations.ModifyFlagsFollowsEachPolicy : Prop :=
  ∀ (f : Byte) (p : FlagPolicies) (fr : FlagResult),
    (modifyFlags f p fr = none ↔ ∃ x, p.get x = .dependent ∧ fr.get x = none) ∧
    ∀ f', modifyFlags f p fr = some f' →
      (∀ j, j < 4 → f'.getLsbD j = f.getLsbD j) ∧
      ∀ x, (p.get x = .unmodified → f'.getLsbD x.bit = f.getLsbD x.bit) ∧
        (p.get x = .set → f'.getLsbD x.bit = true) ∧
        (p.get x = .unset → f'.getLsbD x.bit = false) ∧
        (p.get x = .dependent → fr.get x = some (f'.getLsbD x.bit))

/-- A forced flag has its forced value whatever F held and whatever the operation computed; so RLCA leaves Z false even where its
result is 0x00 (R96). -/
def Obligations.ForcedFlagsIgnoreTheOperation : Prop :=
  (∀ (f : Byte) (p : FlagPolicies) (fr : FlagResult) (f' : Byte) (x : Flag), modifyFlags f p fr = some f' →
    (p.get x = .set → f'.getLsbD x.bit = true) ∧ (p.get x = .unset → f'.getLsbD x.bit = false)) ∧
  (∀ s : State, s.a = 0 → ∃ t, exec .rlca s = .next t ∧ t.a = 0 ∧ t.getFlag .zero = false)

/-- Each flag is written on its own and read back, and the write changes only its bit; a read is true when the bit is 1 (R22). -/
def Obligations.EachFlagIsReadAndWrittenOnItsOwn : Prop :=
  ∀ (s : State) (x : Flag) (v : Bool),
    (s.setFlag x v).getFlag x = v ∧
    (∀ j, j ≠ x.bit → (s.setFlag x v).f.getLsbD j = s.f.getLsbD j) ∧
    s.setFlag x v = { s with f := (s.setFlag x v).f } ∧
    (s.getFlag x = true ↔ s.f.getLsbD x.bit = true)

/-- The host's whole-field writes, each of which changes nothing beyond its field (R36). The flags byte, alone or through AF, is
stored without bits 3..0, and the four flags are its bits 7 to 4 (R20, R21, R23; D10, D11, log entry 9); AF is A and that byte, and
SP is one of the 16-bit names (R19, R20; D12, log entry 13). -/
def Obligations.FlagsByteAfAndSpWritesChangeOnlyTheirField : Prop :=
  ∀ (s : State) (v : Byte) (w : Word),
    ((s.setFlags v).getFlags.toNat = v.toNat / 16 * 16 ∧
      (s.setFlags v).getFlag .zero = v.getLsbD 7 ∧ (s.setFlags v).getFlag .subtract = v.getLsbD 6 ∧
      (s.setFlags v).getFlag .halfCarry = v.getLsbD 5 ∧ (s.setFlags v).getFlag .carry = v.getLsbD 4 ∧
      s.setFlags v = { s with f := (s.setFlags v).f }) ∧
    ((s.setAF w).getAF.toNat = w.toNat / 16 * 16 ∧
      (s.setAF w).a.toNat = w.toNat / 256 ∧ (s.setAF w).f.toNat = w.toNat % 256 / 16 * 16 ∧
      s.setAF w = { s with a := (s.setAF w).a, f := (s.setAF w).f }) ∧
    ((s.setReg16 .sp w).getReg16 .sp = w ∧ s.setReg16 .sp w = { s with sp := w })

/-! ## Registers, operands and memory -/

/-- The seven 8-bit registers are independent: writing one gives it the value and changes no other part of the state (R17). -/
def Obligations.EightBitRegistersAreIndependent : Prop :=
  ∀ (s : State) (r : Reg8) (v : Byte),
    (s.setReg8 r v).getReg8 r = v ∧
    (∀ r', r' ≠ r → (s.setReg8 r v).getReg8 r' = s.getReg8 r') ∧
    (s.setReg8 r v).f = s.f ∧ (s.setReg8 r v).pc = s.pc ∧ (s.setReg8 r v).sp = s.sp ∧ (s.setReg8 r v).mem = s.mem

/-- A pair reads as high byte times 256 plus low byte, writing it writes its two registers and nothing else, so a read gives the
value written; writing either register is seen in the pair (R18). -/
def Obligations.PairsAreViewsOfTheirTwoRegisters : Prop :=
  ∀ (s : State) (v : Word), ∀ ph ∈ [(Reg16.bc, Reg8.b, Reg8.c), (Reg16.de, Reg8.d, Reg8.e), (Reg16.hl, Reg8.h, Reg8.l)],
    (s.getReg16 ph.1).toNat = (s.getReg8 ph.2.1).toNat * 256 + (s.getReg8 ph.2.2).toNat ∧
    (s.setReg16 ph.1 v).getReg16 ph.1 = v ∧
    ((s.setReg16 ph.1 v).getReg8 ph.2.1).toNat = v.toNat / 256 ∧
    ((s.setReg16 ph.1 v).getReg8 ph.2.2).toNat = v.toNat % 256 ∧
    (∀ r, r ≠ ph.2.1 → r ≠ ph.2.2 → (s.setReg16 ph.1 v).getReg8 r = s.getReg8 r) ∧
    (s.setReg16 ph.1 v).f = s.f ∧ (s.setReg16 ph.1 v).pc = s.pc ∧ (s.setReg16 ph.1 v).sp = s.sp ∧
    (s.setReg16 ph.1 v).mem = s.mem

/-- A resolver operation is defined exactly on the descriptors that R84 marks valid for its width, in every state and at every
depth of nesting (R79, R84, R85). -/
def Obligations.ResolverIsDefinedExactlyOnValidDescriptors : Prop :=
  ∀ (s : State) (d : Operand),
    ((get8 s d).isSome = d.valid8 ∧ ∀ v, (set8 s d v).isSome = d.valid8) ∧
    ((get16 s d).isSome = d.valid16 ∧ ∀ v, (set16 s d v).isSome = d.valid16)

/-- The round-trip law, with its proviso: a get directly after a set on the same descriptor gives the value written, whenever the set leaves the
address an Indirect resolves to as it was. A set through a register, an immediate or an Indirect over a register always leaves it.
The proviso is needed, and for a destination of the table: a 16-bit set through Indirect(Imm16(a)) whose address word stands at a
and points at itself moves the address, and the get then reads elsewhere (R86; log entry 7 on R86's last claim; R107's corner case
is the same store). -/
def Obligations.SetThenGetReturnsTheValueWritten : Prop :=
  (∀ (s s' : State) (d : Operand) (v : Byte), set8 s d v = some s' → storeAddress s' d = storeAddress s d →
    get8 s' d = some v) ∧
  (∀ (s s' : State) (d : Operand) (v : Word), set16 s d v = some s' → storeAddress s' d = storeAddress s d →
    get16 s' d = some v) ∧
  (∀ (s s' : State) (d : Operand), (∀ n, d ≠ .indirect n) ∨ (∃ p, d = .indirect (.reg16 p)) →
    ((∃ v, set8 s d v = some s') ∨ (∃ v, set16 s d v = some s')) → storeAddress s' d = storeAddress s d) ∧
  (∃ (s s' : State) (a v : Word), set16 s (.indirect (.imm16 a)) v = some s' ∧ get16 s' (.indirect (.imm16 a)) ≠ some v)

/-- A write through an Indirect changes exactly the addressed bytes, one at width 8 and two at width 16, and no register (R81, R83,
R87). That the low byte of a 16-bit value goes to the lower address is the spec's decision D13 (log entry 13), and that the second
address wraps its decision D4 (log entry 4). -/
def Obligations.IndirectWritesChangeOnlyTheAddressedBytes : Prop :=
  ∀ (s : State) (n : Operand) (addr : Word), get16 s n = some addr →
    (∀ v : Byte, ∃ s', set8 s (.indirect n) v = some s' ∧ s' = { s with mem := s'.mem } ∧
      Memory.read8 s'.mem addr = v ∧ ∀ x, x ≠ addr → Memory.read8 s'.mem x = Memory.read8 s.mem x) ∧
    (∀ v : Word, ∃ s', set16 s (.indirect n) v = some s' ∧ s' = { s with mem := s'.mem } ∧
      (Memory.read8 s'.mem addr).toNat = v.toNat % 256 ∧ (Memory.read8 s'.mem (addr + 1)).toNat = v.toNat / 256 ∧
      ∀ x, x ≠ addr → x ≠ addr + 1 → Memory.read8 s'.mem x = Memory.read8 s.mem x)

/-- The memory is the total functions from 16-bit addresses to bytes, and nothing more: every such function is the reading of a
canonical memory, and two canonical memories that read alike at every address are equal data (R37). -/
def Obligations.MemoryIsATotalFunctionOfTheAddress : Prop :=
  (∀ g : Word → Byte, ∃ m : Memory, Memory.wf m = true ∧ ∀ addr, Memory.read8 m addr = g addr) ∧
  (∀ m m' : Memory, Memory.wf m = true → Memory.wf m' = true →
    (∀ addr, Memory.read8 m addr = Memory.read8 m' addr) → m = m')

/-- A byte write sets its byte and changes no other, at every address (R39). -/
def Obligations.AByteWriteChangesOnlyItsByte : Prop :=
  ∀ (m : Memory) (addr : Word) (v : Byte),
    Memory.read8 (Memory.write8 m addr v) addr = v ∧
    ∀ x, x ≠ addr → Memory.read8 (Memory.write8 m addr v) x = Memory.read8 m x

/-- 16-bit accesses are two byte accesses in little-endian order, at every address, the second address wrapping from 0xFFFF to
0x0000 (R40, R41, R43; D4). -/
def Obligations.WordAccessesAreLittleEndianAndWrap : Prop :=
  ∀ (m : Memory) (addr v : Word),
    (Memory.read16 m addr).toNat =
      (Memory.read8 m addr).toNat + 256 * (Memory.read8 m (BitVec.ofNat 16 ((addr.toNat + 1) % 65536))).toNat ∧
    Memory.read16 (Memory.write16 m addr v) addr = v ∧
    (Memory.read8 (Memory.write16 m addr v) addr).toNat = v.toNat % 256 ∧
    (Memory.read8 (Memory.write16 m addr v) (BitVec.ofNat 16 ((addr.toNat + 1) % 65536))).toNat = v.toNat / 256 ∧
    ∀ x, x ≠ addr → x ≠ addr + 1 → Memory.read8 (Memory.write16 m addr v) x = Memory.read8 m x

/-! ## Reset, invariant and runs -/

/-- At power-on every register, every flag, every pair view, PC, SP and every byte of memory is zero (R34, R38). -/
def Obligations.ResetIsAllZero : Prop :=
  (∀ r, State.reset.getReg8 r = 0) ∧ (∀ p, State.reset.getReg16 p = 0) ∧ State.reset.getAF = 0 ∧
  State.reset.getFlags = 0 ∧ (∀ x, State.reset.getFlag x = false) ∧ State.reset.pc = 0 ∧ State.reset.sp = 0 ∧
  ∀ addr, Memory.read8 State.reset.mem addr = 0

/-- The reset state meets the invariant. -/
def Obligations.ResetMeetsTheInvariant : Prop := State.reset.Inv

/-- Every step keeps the invariant: the memory stays canonical and the low nibble of F stays zero (R21, R37, R94). -/
def Obligations.EveryStepKeepsTheInvariant : Prop :=
  ∀ s s' : State, s.Inv → step s = .next s' → s'.Inv

/-- Every step over ANY decode table keeps the invariant, whatever kinds, operands and policies its entries hold (R21, R69). -/
def Obligations.StepsOverAnyTableKeepTheInvariant : Prop :=
  ∀ (table : DecodeTable) (opcode : Byte) (s s' : State) (n : Nat), s.Inv → stepWith table opcode s = .ok s' n → s'.Inv

/-- In every state of a session, whatever steps and host writes led to it, the invariant holds (R21, R23, R35, R36). That a host
write drops the low nibble is the spec's decision D11 (log entry 9); what the host may write, and that it writes between steps
only, is log entry 14 (D21). -/
def Obligations.EveryReachableStateMeetsTheInvariant : Prop :=
  ∀ s : State, Reachable s → s.Inv

/-- A run of the caller's loop that fails, failed on an opcode outside the table that stands at PC of its end state, and the failing
step left the end state as the last successful step made it; and a run does not fail exactly when it met no such opcode: the byte at
PC is in the table after every shorter run (R99, R125, R140; D26; that an opcode in the table never fails is R73's inference). -/
def Obligations.ARunFailsOnlyAtAnOpcodeOutsideTheTable : Prop :=
  (∀ (n : Nat) (s : State) (failure : Fault), (runCaller n s).failed = some failure →
    failure = .unimplementedOpcode (fetchOpcode (runCaller n s).final) ∧
    0x0A ≤ (fetchOpcode (runCaller n s).final).toNat ∧
    ∃ k, k < n ∧ SafeRun k s ∧ runCaller k s = { runCaller n s with failed := none }) ∧
  (∀ (n : Nat) (s : State), SafeRun n s ↔ ∀ k, k < n → (runCaller k s).final.decodes)

/-- The caller's loop takes exactly the machine's steps: one more safe step of the loop ends where the step from the loop's end
state ends, and adds that step's cost (R140; D26). -/
def Obligations.TheCallerLoopIteratesTheStep : Prop :=
  ∀ (n : Nat) (s : State), SafeRun n s →
    ∀ (t : State) (cycles : Nat), coreStep (fetchOpcode (runCaller n s).final) (runCaller n s).final = .ok t cycles →
      step (runCaller n s).final = .next t ∧ runCaller (n + 1) s = ⟨t, (runCaller n s).total + cycles, none⟩

/-- Over empty memory, from any registers and any PC, every step is a NOP: after n steps PC has gone on by n, wrapping, and nothing
else has changed (R139; the wrap is D4). -/
def Obligations.EmptyMemoryRunsNopsForever : Prop :=
  ∀ (s : State) (n : Nat), (∀ addr, Memory.read8 s.mem addr = 0) →
    runCaller n s = ⟨{ s with pc := s.pc + BitVec.ofNat 16 n }, 4 * n, none⟩

/-- Every host write between two steps keeps the invariant (R21, R23, R36). That a write of the flags byte or of AF drops bits 3..0
is the spec's decision D11 (log entry 9); what the host may write, PC among it, is log entry 14 (D21). -/
def Obligations.EveryHostWriteKeepsTheInvariant : Prop :=
  ∀ (s : State) (w : HostWrite), s.Inv → (hostWrite s w).Inv
end

