-- ==== Sys2Proof/Laws/Bits.lean ====
section
/-! SUPPORT. The byte-order helpers undo one another. -/

namespace Sys2Proof.Machine

/-- R8: `hi:lo` is the value `hi * 256 + lo`. -/
theorem toNat_joinBytes (hi lo : Byte) : (joinBytes hi lo).toNat = hi.toNat * 256 + lo.toNat := by
  have h₁ := hi.isLt
  have h₂ := lo.isLt
  simp only [joinBytes, BitVec.toNat_ofNat]
  omega

theorem toNat_loByte (w : Word) : (loByte w).toNat = w.toNat % 256 := by
  simp [loByte]

theorem toNat_hiByte (w : Word) : (hiByte w).toNat = w.toNat / 256 := by
  have := w.isLt
  simp only [hiByte, BitVec.extractLsb'_toNat, Nat.shiftRight_eq_div_pow]
  omega

@[simp] theorem loByte_joinBytes (hi lo : Byte) : loByte (joinBytes hi lo) = lo := by
  apply BitVec.eq_of_toNat_eq
  have := lo.isLt
  rw [toNat_loByte, toNat_joinBytes]
  omega

@[simp] theorem hiByte_joinBytes (hi lo : Byte) : hiByte (joinBytes hi lo) = hi := by
  apply BitVec.eq_of_toNat_eq
  have := lo.isLt
  rw [toNat_hiByte, toNat_joinBytes]
  omega

@[simp] theorem joinBytes_hiByte_loByte (w : Word) : joinBytes (hiByte w) (loByte w) = w := by
  apply BitVec.eq_of_toNat_eq
  rw [toNat_joinBytes, toNat_hiByte, toNat_loByte]
  omega

end Sys2Proof.Machine
end

