-- ==== Sys2Proof/Laws/State.lean ====
section
/-! SUPPORT. What each update of the state leaves alone, and what a read gives after it: one lemma per field per update. -/

namespace Sys2Proof.Machine

variable (s : State) (r : Reg8) (p : Reg16) (x : Flag) (v : Byte) (w : Word) (b : Bool)

@[simp] theorem setReg8_f : (s.setReg8 r v).f = s.f := by cases r <;> rfl
@[simp] theorem setReg8_pc : (s.setReg8 r v).pc = s.pc := by cases r <;> rfl
@[simp] theorem setReg8_sp : (s.setReg8 r v).sp = s.sp := by cases r <;> rfl
@[simp] theorem setReg8_mem : (s.setReg8 r v).mem = s.mem := by cases r <;> rfl

@[simp] theorem setReg16_f : (s.setReg16 p w).f = s.f := by cases p <;> rfl
@[simp] theorem setReg16_pc : (s.setReg16 p w).pc = s.pc := by cases p <;> rfl
@[simp] theorem setReg16_mem : (s.setReg16 p w).mem = s.mem := by cases p <;> rfl

@[simp] theorem setReg16_sp_sp : (s.setReg16 .sp w).sp = w := rfl
@[simp] theorem getReg8_setReg16_sp : (s.setReg16 .sp w).getReg8 r = s.getReg8 r := by cases r <;> rfl

@[simp] theorem setFlag_f : (s.setFlag x b).f = setFlagBit s.f x b := rfl
@[simp] theorem setFlag_pc : (s.setFlag x b).pc = s.pc := rfl
@[simp] theorem setFlag_sp : (s.setFlag x b).sp = s.sp := rfl
@[simp] theorem setFlag_mem : (s.setFlag x b).mem = s.mem := rfl
@[simp] theorem getReg8_setFlag : (s.setFlag x b).getReg8 r = s.getReg8 r := by cases r <;> rfl

@[simp] theorem setFlags_f : (s.setFlags v).f = v &&& 0xF0 := rfl
@[simp] theorem setFlags_pc : (s.setFlags v).pc = s.pc := rfl
@[simp] theorem setFlags_sp : (s.setFlags v).sp = s.sp := rfl
@[simp] theorem setFlags_mem : (s.setFlags v).mem = s.mem := rfl
@[simp] theorem getReg8_setFlags : (s.setFlags v).getReg8 r = s.getReg8 r := by cases r <;> rfl

@[simp] theorem setAF_f : (s.setAF w).f = loByte w &&& 0xF0 := rfl
@[simp] theorem setAF_a : (s.setAF w).a = hiByte w := rfl
@[simp] theorem setAF_pc : (s.setAF w).pc = s.pc := rfl
@[simp] theorem setAF_sp : (s.setAF w).sp = s.sp := rfl
@[simp] theorem setAF_mem : (s.setAF w).mem = s.mem := rfl

@[simp] theorem toOutcome_ok (n : Nat) : (StepResult.ok s n).toOutcome = .next s := rfl
@[simp] theorem toOutcome_fail (e : Fault) : (StepResult.fail e).toOutcome = .fault e := rfl
@[simp] theorem raiseFailure_eq (e : Fault) : raiseFailure e = .fail e := rfl

end Sys2Proof.Machine
end

