-- ==== Sys2Proof/Laws/Flags.lean ====
section
/-! SUPPORT. A flag write changes one bit, and what `modify_flags` can do to F. -/

namespace Sys2Proof.Machine

/-- Every bit of a flags byte after one flag is written. -/
theorem getLsbD_setFlagBit (f : Byte) (x : Flag) (v : Bool) (j : Nat) :
    (setFlagBit f x v).getLsbD j = if j = x.bit then v else f.getLsbD j := by
  by_cases hj : j < 8
  · interval_cases j <;> cases x <;> cases v <;> simp [setFlagBit, Flag.bit]
  · have h₁ : ∀ g : Byte, g.getLsbD j = false := fun g => BitVec.getLsbD_of_ge g j (by omega)
    have h₂ : j ≠ x.bit := by cases x <;> simp [Flag.bit] <;> omega
    simp [h₁, h₂]

/-- The same with the bound in hand, the form that simp gives a bit of known place. -/
@[simp] theorem getElem_setFlagBit (f : Byte) (x : Flag) (v : Bool) (j : Nat) (hj : j < 8) :
    (setFlagBit f x v)[j] = if j = x.bit then v else f[j] := by
  simpa [BitVec.getLsbD_eq_getElem, hj] using getLsbD_setFlagBit f x v j

theorem bit_injective {x y : Flag} (h : x.bit = y.bit) : x = y := by
  cases x <;> cases y <;> simp_all [Flag.bit]

theorem getLsbD_setFlagBit_same (f : Byte) (x : Flag) (v : Bool) : (setFlagBit f x v).getLsbD x.bit = v := by
  simp [getLsbD_setFlagBit]

theorem getLsbD_setFlagBit_other (f : Byte) {x y : Flag} (v : Bool) (h : y ≠ x) :
    (setFlagBit f x v).getLsbD y.bit = f.getLsbD y.bit := by
  have hb : y.bit ≠ x.bit := fun e => h (bit_injective e)
  simp [getLsbD_setFlagBit, hb]

/-- The low nibble of F is zero exactly when its four bits are. -/
theorem lowNibble_eq_zero_iff (f : Byte) : f &&& 0x0F = 0 ↔ ∀ j, j < 4 → f.getLsbD j = false := by
  constructor
  · intro h j hj
    have := congrArg (fun g : Byte => g.getLsbD j) h
    interval_cases j <;> simpa using this
  · intro h
    apply BitVec.eq_of_getLsbD_eq
    intro i hi
    by_cases h4 : i < 4
    · simp [h i h4]
    · interval_cases i <;> simp_all

theorem lowNibble_setFlagBit {f : Byte} (x : Flag) (v : Bool) (h : f &&& 0x0F = 0) :
    setFlagBit f x v &&& 0x0F = 0 := by
  rw [lowNibble_eq_zero_iff] at *
  intro j hj
  have : j ≠ x.bit := by cases x <;> simp [Flag.bit] <;> omega
  rw [getLsbD_setFlagBit, if_neg this, h j hj]

/-- What one flag's policy can answer: F kept, or this flag written. -/
theorem modifyFlag_cases {f f' : Byte} {x : Flag} {p : FlagPolicy} {r : Option Bool}
    (h : modifyFlag f x p r = some f') :
    (p = .unmodified ∧ f' = f) ∨ (p ≠ .unmodified ∧ ∃ v, f' = setFlagBit f x v ∧
      (p = .set → v = true) ∧ (p = .unset → v = false) ∧ (p = .dependent → r = some v)) := by
  cases p with
  | unmodified => simp [modifyFlag] at h; exact .inl ⟨rfl, h.symm⟩
  | set => simp [modifyFlag] at h; exact .inr ⟨by simp, true, h.symm, by simp, by simp, by simp⟩
  | unset => simp [modifyFlag] at h; exact .inr ⟨by simp, false, h.symm, by simp, by simp, by simp⟩
  | dependent =>
    cases r with
    | none => simp [modifyFlag] at h
    | some v => simp [modifyFlag] at h; exact .inr ⟨by simp, v, h.symm, by simp, by simp, by simp⟩

theorem modifyFlag_other {f f' : Byte} {x : Flag} {p : FlagPolicy} {r : Option Bool} {j : Nat}
    (h : modifyFlag f x p r = some f') (hj : j ≠ x.bit) : f'.getLsbD j = f.getLsbD j := by
  obtain ⟨-, rfl⟩ | ⟨-, v, rfl, -⟩ := modifyFlag_cases h
  · rfl
  · rw [getLsbD_setFlagBit, if_neg hj]

theorem modifyFlag_lowNibble {f f' : Byte} {x : Flag} {p : FlagPolicy} {r : Option Bool}
    (h : modifyFlag f x p r = some f') (hf : f &&& 0x0F = 0) : f' &&& 0x0F = 0 := by
  obtain ⟨-, rfl⟩ | ⟨-, v, rfl, -⟩ := modifyFlag_cases h
  · exact hf
  · exact lowNibble_setFlagBit x v hf

/-- `modify_flags` is four single updates, one after the other. -/
theorem modifyFlags_split {f f' : Byte} {p : FlagPolicies} {fr : FlagResult} (h : modifyFlags f p fr = some f') :
    ∃ f₁ f₂ f₃, modifyFlag f .zero p.zero fr.zero = some f₁ ∧ modifyFlag f₁ .subtract p.subtract fr.subtract = some f₂ ∧
      modifyFlag f₂ .halfCarry p.halfCarry fr.halfCarry = some f₃ ∧ modifyFlag f₃ .carry p.carry fr.carry = some f' := by
  simp only [modifyFlags, Option.bind_eq_bind, Option.bind_eq_some_iff] at h
  obtain ⟨f₁, h₁, f₂, h₂, f₃, h₃, h₄⟩ := h
  exact ⟨f₁, f₂, f₃, h₁, h₂, h₃, h₄⟩

/-- The low nibble stays zero. -/
theorem modifyFlags_lowNibble {f f' : Byte} {p : FlagPolicies} {fr : FlagResult}
    (h : modifyFlags f p fr = some f') (hf : f &&& 0x0F = 0) : f' &&& 0x0F = 0 := by
  obtain ⟨f₁, f₂, f₃, h₁, h₂, h₃, h₄⟩ := modifyFlags_split h
  exact modifyFlag_lowNibble h₄ (modifyFlag_lowNibble h₃ (modifyFlag_lowNibble h₂ (modifyFlag_lowNibble h₁ hf)))

end Sys2Proof.Machine
end

