-- ==== Sys2Proof/Laws/Memory.lean ====
section
/-! SUPPORT. Memory: a read after a write, every operation keeps the canonical form, and a canonical memory is determined by what
its addresses read as. -/

namespace Sys2Proof.Machine

theorem lookup_erase (m : Memory) (k a : Nat) :
    Memory.lookup (Memory.erase m k) a = if a = k then 0 else Memory.lookup m a := by
  induction m with
  | nil => simp [Memory.erase, Memory.lookup]
  | cons cell rest ih =>
    obtain ⟨k', v'⟩ := cell
    simp only [Memory.erase]
    by_cases h : k' = k
    · subst h
      by_cases ha : a = k'
      · subst ha; simp [ih]
      · simp [ih, ha, Memory.lookup, Ne.symm ha]
    · by_cases ha : k' = a
      · subst ha; simp [h, Memory.lookup]
      · simp [h, Memory.lookup, ha, ih]

/-- Inserting at a key the memory does not hold. -/
theorem lookup_insert_erase (m : Memory) (k a : Nat) (v : Byte) :
    Memory.lookup (Memory.insert (Memory.erase m k) k v) a = if a = k then v else Memory.lookup m a := by
  induction m with
  | nil =>
    by_cases ha : a = k
    · simp [Memory.erase, Memory.insert, Memory.lookup, ha]
    · simp [Memory.erase, Memory.insert, Memory.lookup, ha, Ne.symm ha]
  | cons cell rest ih =>
    obtain ⟨k', v'⟩ := cell
    simp only [Memory.erase]
    by_cases h : k' = k
    · subst h
      by_cases ha : a = k'
      · subst ha; simp [ih]
      · simp [ih, ha, Memory.lookup, Ne.symm ha]
    · simp only [h, if_false, Memory.insert]
      by_cases hlt : k < k'
      · by_cases ha : a = k
        · subst ha; simp [hlt, Memory.lookup]
        · simp [hlt, Memory.lookup, ha, Ne.symm ha, lookup_erase]
      · by_cases ha : k' = a
        · subst ha; simp [hlt, Memory.lookup, h]
        · simp [hlt, Memory.lookup, ha, ih]

/-- A read after a store, at any two addresses; no form of the list is asked for. -/
theorem lookup_store (m : Memory) (k a : Nat) (v : Byte) :
    Memory.lookup (Memory.store m k v) a = if a = k then v else Memory.lookup m a := by
  unfold Memory.store
  split
  · subst v; exact lookup_erase m k a
  · exact lookup_insert_erase m k a v

theorem wfFrom_mono {m : Memory} {n n' : Nat} (hn : n' ≤ n) (h : Memory.wfFrom n m = true) :
    Memory.wfFrom n' m = true := by
  cases m with
  | nil => rfl
  | cons cell rest => simp_all [Memory.wfFrom]; omega

theorem wfFrom_erase {m : Memory} {n : Nat} (k : Nat) (h : Memory.wfFrom n m = true) :
    Memory.wfFrom n (Memory.erase m k) = true := by
  induction m generalizing n with
  | nil => rfl
  | cons cell rest ih =>
    obtain ⟨k', v'⟩ := cell
    simp only [Memory.wfFrom, Bool.and_eq_true, decide_eq_true_eq] at h
    simp only [Memory.erase]
    split
    · exact ih (wfFrom_mono (by omega) h.2)
    · simp only [Memory.wfFrom, ih h.2, h, decide_true, Bool.and_self]

theorem wfFrom_insert {m : Memory} {n k : Nat} {v : Byte} (hk : n ≤ k) (hlt : k < 0x10000) (hv : v ≠ 0)
    (h : Memory.wfFrom n m = true) : Memory.wfFrom n (Memory.insert (Memory.erase m k) k v) = true := by
  have hv' : (v != 0) = true := bne_iff_ne.mpr hv
  induction m generalizing n with
  | nil => simp only [Memory.erase, Memory.insert, Memory.wfFrom, hk, hlt, hv', decide_true, Bool.and_self]
  | cons cell rest ih =>
    obtain ⟨k', v'⟩ := cell
    simp only [Memory.wfFrom, Bool.and_eq_true, decide_eq_true_eq] at h
    simp only [Memory.erase]
    split
    · exact ih hk (wfFrom_mono (by omega) h.2)
    · next hne =>
      simp only [Memory.insert]
      split
      · next hkk =>
        have hkk' : k + 1 ≤ k' := hkk
        simp only [Memory.wfFrom, hk, hlt, hv', hkk', h.1.1.2, h.1.2, wfFrom_erase k h.2, decide_true, Bool.and_self]
      · simp only [Memory.wfFrom, h.1.1.1, h.1.1.2, h.1.2, ih (n := k' + 1) (by omega) h.2, decide_true, Bool.and_self]

theorem wf_store {m : Memory} {k : Nat} (v : Byte) (hk : k < 0x10000) (h : Memory.wf m = true) :
    Memory.wf (Memory.store m k v) = true := by
  unfold Memory.store Memory.wf at *
  split
  · exact wfFrom_erase k h
  · next hv => exact wfFrom_insert (Nat.zero_le k) hk hv h

/-- Every byte write keeps the canonical form. -/
theorem wf_write8 {m : Memory} (addr : Word) (v : Byte) (h : Memory.wf m = true) :
    Memory.wf (Memory.write8 m addr v) = true := wf_store v addr.isLt h

/-- Every 16-bit write keeps the canonical form. -/
theorem wf_write16 {m : Memory} (addr v : Word) (h : Memory.wf m = true) :
    Memory.wf (Memory.write16 m addr v) = true := wf_write8 _ _ (wf_write8 _ _ h)

theorem wf_reset : Memory.wf State.reset.mem = true := rfl

/-- What a canonical memory lists, none of it below its least address. -/
theorem lookup_below {m : Memory} {n a : Nat} (h : Memory.wfFrom n m = true) (ha : a < n) :
    Memory.lookup m a = 0 := by
  induction m generalizing n with
  | nil => rfl
  | cons cell rest ih =>
    simp only [Memory.wfFrom, Bool.and_eq_true, decide_eq_true_eq] at h
    have hne : cell.1 ≠ a := by omega
    simp [Memory.lookup, hne, ih h.2 (by omega)]

/-- Two canonical memories that read alike at every key are the same list. -/
theorem lookup_ext {m₁ m₂ : Memory} {n₁ n₂ : Nat} (h₁ : Memory.wfFrom n₁ m₁ = true)
    (h₂ : Memory.wfFrom n₂ m₂ = true) (h : ∀ a, Memory.lookup m₁ a = Memory.lookup m₂ a) : m₁ = m₂ := by
  induction m₁ generalizing m₂ n₁ n₂ with
  | nil =>
    cases m₂ with
    | nil => rfl
    | cons cell rest =>
      have := h cell.1
      simp only [Memory.wfFrom, Bool.and_eq_true] at h₂
      simp [Memory.lookup] at this
      simp [← this] at h₂
  | cons c₁ r₁ ih =>
    simp only [Memory.wfFrom, Bool.and_eq_true, decide_eq_true_eq, bne_iff_ne] at h₁
    cases m₂ with
    | nil =>
      have := h c₁.1
      simp [Memory.lookup] at this
      exact absurd this h₁.1.2
    | cons c₂ r₂ =>
      simp only [Memory.wfFrom, Bool.and_eq_true, decide_eq_true_eq, bne_iff_ne] at h₂
      have key : c₁.1 = c₂.1 := by
        rcases Nat.lt_trichotomy c₁.1 c₂.1 with hlt | heq | hlt
        · have hb := h c₁.1
          simp [Memory.lookup, Nat.ne_of_gt hlt, lookup_below h₂.2 (Nat.lt_succ_of_lt hlt)] at hb
          exact absurd hb h₁.1.2
        · exact heq
        · have hb := h c₂.1
          simp [Memory.lookup, Nat.ne_of_gt hlt, lookup_below h₁.2 (Nat.lt_succ_of_lt hlt)] at hb
          exact absurd hb.symm h₂.1.2
      have val : c₁.2 = c₂.2 := by
        have := h c₁.1
        simpa [Memory.lookup, key] using this
      have tail : r₁ = r₂ := by
        refine ih h₁.2 h₂.2 fun a => ?_
        by_cases ha : c₁.1 = a
        · rw [lookup_below h₁.2 (by omega), lookup_below h₂.2 (by omega)]
        · have := h a
          simpa [Memory.lookup, ha, ← key] using this
      exact congrArg₂ List.cons (Prod.ext key val) tail

end Sys2Proof.Machine
end

