-- ==== Sys2Proof/Laws/Operands.lean ====
section
/-! SUPPORT. What a write through the operand resolver can do. -/

namespace Sys2Proof.Machine

/-- A set changes one register, or one byte at the descriptor's store address. -/
theorem set8_cases {s s' : State} {d : Operand} {v : Byte} (h : set8 s d v = some s') :
    (∃ r, d = .reg8 r ∧ s' = s.setReg8 r v) ∨
    (∃ addr, storeAddress s d = some addr ∧ s' = { s with mem := Memory.write8 s.mem addr v }) := by
  cases d with
  | reg8 r => simp [set8] at h; exact .inl ⟨r, rfl, h.symm⟩
  | reg16 p => simp [set8] at h
  | imm8 a => simp [set8] at h; exact .inr ⟨a, rfl, h.symm⟩
  | imm16 a => simp [set8] at h
  | indirect n =>
    simp only [set8, Option.map_eq_some_iff] at h
    obtain ⟨a, ha, rfl⟩ := h
    exact .inr ⟨a, ha, rfl⟩

/-- A set changes one pair, or the two bytes at the descriptor's store address. -/
theorem set16_cases {s s' : State} {d : Operand} {v : Word} (h : set16 s d v = some s') :
    (∃ p, d = .reg16 p ∧ s' = s.setReg16 p v) ∨
    (∃ addr, storeAddress s d = some addr ∧ s' = { s with mem := Memory.write16 s.mem addr v }) := by
  cases d with
  | reg8 r => simp [set16] at h
  | reg16 p => simp [set16] at h; exact .inl ⟨p, rfl, h.symm⟩
  | imm8 a => simp [set16] at h
  | imm16 a => simp [set16] at h; exact .inr ⟨a, rfl, h.symm⟩
  | indirect n =>
    simp only [set16, Option.map_eq_some_iff] at h
    obtain ⟨a, ha, rfl⟩ := h
    exact .inr ⟨a, ha, rfl⟩

/-- What no set touches: F, PC, and the memory's canonical form. -/
structure DataWriteOnly (s s' : State) : Prop where
  f_eq : s'.f = s.f
  pc_eq : s'.pc = s.pc
  wf_mem : Memory.wf s.mem = true → Memory.wf s'.mem = true

theorem DataWriteOnly.refl (s : State) : DataWriteOnly s s := ⟨rfl, rfl, id⟩

theorem set8_dataWriteOnly {s s' : State} {d : Operand} {v : Byte} (h : set8 s d v = some s') : DataWriteOnly s s' := by
  obtain ⟨r, -, rfl⟩ | ⟨a, -, rfl⟩ := set8_cases h
  · exact ⟨by simp, by simp, by simp⟩
  · exact ⟨rfl, rfl, wf_write8 a v⟩

theorem set16_dataWriteOnly {s s' : State} {d : Operand} {v : Word} (h : set16 s d v = some s') : DataWriteOnly s s' := by
  obtain ⟨p, -, rfl⟩ | ⟨a, -, rfl⟩ := set16_cases h
  · exact ⟨by simp, by simp, by simp⟩
  · exact ⟨rfl, rfl, wf_write16 a v⟩

end Sys2Proof.Machine
end

