-- ==== Sys2Proof/Laws/Engine.lean ====
section
/-! SUPPORT. What a body, and a step over any table, can do. -/

namespace Sys2Proof.Machine

theorem bodyLd_dataWriteOnly {src dst : Operand} {s s' : State} {fr : FlagResult}
    (h : bodyLd src dst s = some (s', fr)) : DataWriteOnly s s' := by
  unfold bodyLd at h
  split at h
  · simp only [Option.bind_eq_bind, Option.bind_eq_some_iff, Option.pure_def, Option.some.injEq, Prod.mk.injEq] at h
    obtain ⟨v, -, s₁, hs, rfl, -⟩ := h
    exact set8_dataWriteOnly hs
  · simp only [Option.bind_eq_bind, Option.bind_eq_some_iff, Option.pure_def, Option.some.injEq, Prod.mk.injEq] at h
    obtain ⟨v, -, s₁, hs, rfl, -⟩ := h
    exact set16_dataWriteOnly hs
  · simp at h

theorem bodyIncDec_dataWriteOnly {mode : ArithMode} {dst : Operand} {s s' : State} {fr : FlagResult}
    (h : bodyIncDec mode dst s = some (s', fr)) : DataWriteOnly s s' := by
  unfold bodyIncDec at h
  split at h
  · simp only [Option.bind_eq_bind, Option.bind_eq_some_iff, Option.pure_def, Option.some.injEq, Prod.mk.injEq] at h
    obtain ⟨v, -, s₁, hs, rfl, -⟩ := h
    exact set8_dataWriteOnly hs
  · simp only [Option.bind_eq_bind, Option.bind_eq_some_iff, Option.pure_def, Option.some.injEq, Prod.mk.injEq] at h
    obtain ⟨v, -, s₁, hs, rfl, -⟩ := h
    exact set16_dataWriteOnly hs
  · simp at h

theorem bodyAdd_dataWriteOnly {src dst : Operand} {s s' : State} {fr : FlagResult}
    (h : bodyAdd src dst s = some (s', fr)) : DataWriteOnly s s' := by
  simp only [bodyAdd, Option.bind_eq_bind, Option.bind_eq_some_iff, Option.pure_def, Option.some.injEq, Prod.mk.injEq] at h
  obtain ⟨_, -, _, -, s₁, hs, rfl, -⟩ := h
  exact set16_dataWriteOnly hs

theorem bodyRotateLeft_dataWriteOnly {dst : Operand} {s s' : State} {fr : FlagResult}
    (h : bodyRotateLeft dst s = some (s', fr)) : DataWriteOnly s s' := by
  simp only [bodyRotateLeft, Option.bind_eq_bind, Option.bind_eq_some_iff, Option.pure_def, Option.some.injEq,
    Prod.mk.injEq] at h
  obtain ⟨_, -, s₁, hs, rfl, -⟩ := h
  exact set8_dataWriteOnly hs

/-- A body writes data only: F and PC are the commit's. -/
theorem execBody_dataWriteOnly {i : Descriptor} {s s' : State} {fr : FlagResult}
    (h : execBody i s = some (s', fr)) : DataWriteOnly s s' := by
  unfold execBody at h
  split at h
  · simp only [bodyNop, Option.some.injEq, Prod.mk.injEq] at h
    obtain ⟨rfl, -⟩ := h
    exact .refl s
  · exact bodyLd_dataWriteOnly h
  · exact bodyIncDec_dataWriteOnly h
  · exact bodyIncDec_dataWriteOnly h
  · exact bodyAdd_dataWriteOnly h
  · exact bodyRotateLeft_dataWriteOnly h
  · simp at h

/-- Everything an Instruction that does not fail can do: the checks hold, the body ran, the flags were committed, and PC went on. -/
theorem runDescriptor_ok {op : Byte} {i : Descriptor} {s t : State} {n : Nat}
    (h : runDescriptor op i s = .ok t n) :
    i.kind ≠ .rxc .right ∧ i.widthValid = true ∧ i.flagsComputable = true ∧ n = i.cycles ∧
    ∃ s' fr f, execBody i s = some (s', fr) ∧ modifyFlags s'.f i.policy fr = some f ∧
      t = { s' with f := f, pc := advancePc s.pc i.length } := by
  unfold runDescriptor at h
  split at h
  · simp at h
  split at h
  · simp at h
  split at h
  · simp at h
  next hk hw hf =>
  split at h
  · next s' fr hb =>
    unfold commitStep at h
    split at h
    · next f hm =>
      simp only [StepResult.ok.injEq] at h
      exact ⟨hk, by simpa using hw, by simpa using hf, h.2.symm, s', fr, f, hb, hm, h.1.symm⟩
    · simp at h
  · simp at h

/-- A step over a table that does not fail ran one of its Instructions. -/
theorem stepWith_ok {table : DecodeTable} {op : Byte} {s t : State} {n : Nat}
    (h : stepWith table op s = .ok t n) :
    ∃ i, decodeWith table op s.pc = some i ∧ runDescriptor op i s = .ok t n := by
  unfold stepWith at h
  split at h
  · next i hi => exact ⟨i, hi, h⟩
  · simp at h

/-- One step of the caller's loop that succeeds: the loop goes on from the next state, the cost added. -/
theorem runFrom_of_ok {total n cycles : Nat} {s t : State} (h : coreStep (fetchOpcode s) s = .ok t cycles) :
    runFrom total (n + 1) s = runFrom (total + cycles) n t := by simp only [runFrom, h]

/-- One step of the caller's loop that fails: the loop ends where it stands. -/
theorem runFrom_of_fail {total n : Nat} {s : State} {failure : Fault} (h : coreStep (fetchOpcode s) s = .fail failure) :
    runFrom total (n + 1) s = ⟨s, total, some failure⟩ := by simp only [runFrom, h]

/-- The next states of the host's interface are the successful results. -/
theorem toOutcome_next {r : StepResult} {t : State} (h : r.toOutcome = .next t) : ∃ n, r = .ok t n := by
  cases r with
  | ok s n => simp only [toOutcome_ok, Host.Outcome.next.injEq] at h; exact ⟨n, by rw [h]⟩
  | fail e => simp at h

/-- Each meaning is its entry run at the current PC. -/
theorem exec_of_entry {i : Instr} {e : Entry} (h : instrEntry config i = some e) (s : State) :
    exec i s = (runEntry e s).toOutcome := by
  cases i <;> simp only [instrEntry, Option.some.injEq, reduceCtorEq] at h <;> subst h <;> rfl

end Sys2Proof.Machine
end

