-- ==== Sys2Proof/Laws/Meanings.lean ====
section
/-! SUPPORT. What each table entry does when it runs, said once, under any configuration: the provers rewrite with these instead of
unfolding the engine. -/

namespace Sys2Proof.Machine

variable (cfg : Config) (s : State)

theorem runEntry_nop : runEntry (entryNop cfg) s = .ok { s with pc := s.pc + 1 } 4 := rfl

theorem runEntry_ldBcD16 : runEntry (entryLdBcD16 cfg) s =
    .ok { s with
      b := hiByte (Memory.read16 s.mem (s.pc + 1)), c := loByte (Memory.read16 s.mem (s.pc + 1)), pc := s.pc + 3 } 12 := rfl

theorem runEntry_ldBcA : runEntry (entryLdBcA cfg) s =
    .ok { s with mem := Memory.write8 s.mem (joinBytes s.b s.c) s.a, pc := s.pc + 1 } cfg.cycleCost.ldBcA := rfl

theorem runEntry_ldBD8 : runEntry (entryLdBD8 cfg) s =
    .ok { s with b := Memory.read8 s.mem (s.pc + 1), pc := s.pc + 2 } cfg.cycleCost.ldBD8 := rfl

theorem runEntry_ldA16Sp : runEntry (entryLdA16Sp cfg) s =
    .ok { s with mem := Memory.write16 s.mem (Memory.read16 s.mem (s.pc + 1)) s.sp, pc := s.pc + 3 }
      cfg.cycleCost.ldA16Sp := rfl

theorem runEntry_incBc : runEntry (entryIncBc cfg) s =
    .ok { s with b := hiByte (joinBytes s.b s.c + 1), c := loByte (joinBytes s.b s.c + 1), pc := s.pc + 1 }
      cfg.cycleCost.incBc := rfl

/-- F after an 8-bit INC or DEC. -/
def flagsAfterStep (f new : Byte) (subtract half : Bool) : Byte :=
  setFlagBit (setFlagBit (setFlagBit f .zero (new == 0)) .subtract subtract) .halfCarry half

theorem runEntry_incB : runEntry (entryIncB cfg) s =
    .ok { s with b := s.b + 1, f := flagsAfterStep s.f (s.b + 1) false (addHalfCarry8 s.b 1), pc := s.pc + 1 }
      cfg.cycleCost.incB := rfl

theorem runEntry_decB : runEntry (entryDecB cfg) s =
    .ok { s with b := s.b - 1, f := flagsAfterStep s.f (s.b - 1) true (subHalfCarry8 s.b 1), pc := s.pc + 1 }
      cfg.cycleCost.decB := rfl

/-- F after RLCA. -/
def flagsAfterRotate (f : Byte) (carry : Bool) : Byte :=
  setFlagBit (setFlagBit (setFlagBit (setFlagBit f .zero false) .subtract false) .halfCarry false) .carry carry

theorem runEntry_rlca : runEntry (entryRlca cfg) s =
    .ok { s with a := rotateLeftCircular s.a, f := flagsAfterRotate s.f (s.a.getLsbD 7), pc := s.pc + 1 }
      cfg.cycleCost.rlca := rfl

/-- F after ADD HL,BC under either Zero policy. -/
def flagsAfterAdd (p : Add16ZeroPolicy) (f : Byte) (a b : Word) : Byte :=
  let f₁ := match p with
    | .unmodified => f
    | .dependent => setFlagBit f .zero (a + b == 0)
  setFlagBit (setFlagBit (setFlagBit f₁ .subtract false) .halfCarry (addHalfCarry16 a b)) .carry (addCarry16 a b)

theorem runEntry_addHlBc : runEntry (entryAddHlBc cfg) s =
    .ok { s with
      h := hiByte (joinBytes s.h s.l + joinBytes s.b s.c), l := loByte (joinBytes s.h s.l + joinBytes s.b s.c)
      f := flagsAfterAdd cfg.add16ZeroPolicy s.f (joinBytes s.h s.l) (joinBytes s.b s.c), pc := s.pc + 1 }
      cfg.cycleCost.addHlBc := by
  obtain ⟨p, c⟩ := cfg
  cases p <;> rfl

end Sys2Proof.Machine
end

