-- ==== Sys2Proof/Laws/PerInstr.lean ====
section
/-! SUPPORT. Laws of an instruction as syntax, one lemma per constructor. -/

/-- The opcode of a well-formed instruction decodes to it (30_encoding.md R55, R62). -/
def Sys2Proof.Laws.DecodesBack.Statement (i : Sys2Proof.Instr) : Prop :=
  i.wf = true → Sys2Proof.decodeOpcode i.opcode = i

namespace Sys2Proof.Laws.DecodesBack

theorem nop : Statement .nop := fun _ => rfl
theorem ldBcD16 : Statement .ldBcD16 := fun _ => rfl
theorem ldBcA : Statement .ldBcA := fun _ => rfl
theorem incBc : Statement .incBc := fun _ => rfl
theorem incB : Statement .incB := fun _ => rfl
theorem decB : Statement .decB := fun _ => rfl
theorem ldBD8 : Statement .ldBD8 := fun _ => rfl
theorem rlca : Statement .rlca := fun _ => rfl
theorem ldA16Sp : Statement .ldA16Sp := fun _ => rfl
theorem addHlBc : Statement .addHlBc := fun _ => rfl

theorem unimplementedOpcode (opcode : Byte) : Statement (.unimplementedOpcode opcode) := by
  intro h
  simp only [Instr.wf, decide_eq_true_eq] at h
  show decodeOpcode opcode = .unimplementedOpcode opcode
  unfold decodeOpcode
  split <;> first | omega | rfl

end Sys2Proof.Laws.DecodesBack

/-- An instruction is 1, 2 or 3 bytes long: the opcode and the immediate its format has room for (R54). -/
def Sys2Proof.Laws.EncodedLength.Statement (i : Sys2Proof.Instr) : Prop :=
  ∀ imm : Sys2Proof.Immediate, imm.fits i.format = true →
    (Sys2Proof.encode ⟨i, imm⟩).length = match i.format with | .op => 1 | .opD8 => 2 | .opD16 => 3

namespace Sys2Proof.Laws.EncodedLength

theorem nop : Statement .nop := by intro imm h; cases imm <;> first | rfl | exact nomatch h
theorem ldBcD16 : Statement .ldBcD16 := by intro imm h; cases imm <;> first | rfl | exact nomatch h
theorem ldBcA : Statement .ldBcA := by intro imm h; cases imm <;> first | rfl | exact nomatch h
theorem incBc : Statement .incBc := by intro imm h; cases imm <;> first | rfl | exact nomatch h
theorem incB : Statement .incB := by intro imm h; cases imm <;> first | rfl | exact nomatch h
theorem decB : Statement .decB := by intro imm h; cases imm <;> first | rfl | exact nomatch h
theorem ldBD8 : Statement .ldBD8 := by intro imm h; cases imm <;> first | rfl | exact nomatch h
theorem rlca : Statement .rlca := by intro imm h; cases imm <;> first | rfl | exact nomatch h
theorem ldA16Sp : Statement .ldA16Sp := by intro imm h; cases imm <;> first | rfl | exact nomatch h
theorem addHlBc : Statement .addHlBc := by intro imm h; cases imm <;> first | rfl | exact nomatch h
theorem unimplementedOpcode (opcode : Byte) : Statement (.unimplementedOpcode opcode) := by
  intro imm h; cases imm <;> first | rfl | exact nomatch h

end Sys2Proof.Laws.EncodedLength
end

