-- ==== Sys2Proof/Tests/Slice0.lean ====
section
/-! SUPPORT. Tests and witnesses. Expected values come from spec/95_test_vectors.md (the vector is named at each test), from the
`encoding` column of spec/opcode_table.json, or from hand calculation from the rule named. -/

namespace Sys2Proof.Tests

open Sys2Proof Sys2Proof.Machine

/-! ## Well-formedness: one ill-formed term for each check -/

/-- `Instr.wf`: the default row on an opcode that has a row of its own (the boundary 0x09), and on the first that has none. -/
theorem test_wf_default_row : Instr.wf (.unimplementedOpcode 0x09) = false ∧ Instr.wf (.unimplementedOpcode 0x0A) = true := by
  decide

/-- `AsmInstr.wf`: an immediate of the wrong width, and one where there is no room for one. -/
theorem test_wf_immediate :
    AsmInstr.wf ⟨.ldBcD16, .d8 0x34⟩ = false ∧ AsmInstr.wf ⟨.ldBD8, .none⟩ = false ∧ AsmInstr.wf ⟨.nop, .d16 0⟩ = false := by
  decide

/-- Memory.wf: out of order, a listed 0x00, and an address past 0xFFFF. -/
theorem test_wf_memory :
    Memory.wf [(2, 1), (1, 1)] = false ∧ Memory.wf [(1, 1), (1, 2)] = false ∧ Memory.wf [(1, 0)] = false ∧
    Memory.wf [(0x10000, 1)] = false ∧ Memory.wf [(0, 1), (0xFFFF, 2)] = true := by decide

/-- An LD descriptor between two operands, for the checks of R73. -/
def ldOf (src dst : Operand) : Descriptor := ⟨some src, some dst, .ld, .one, 4, policyKeep⟩

/-- V13, V11, V12 (R84): check (W) fails on LD between two Indirects, on a width mismatch and on an Indirect over an 8-bit inner. -/
theorem test_wf_entry_width :
    (ldOf (.indirect (.reg16 .hl)) (.indirect (.reg16 .bc))).widthValid = false ∧
    (ldOf (.reg8 .a) (.reg16 .bc)).widthValid = false ∧
    (ldOf (.indirect (.reg8 .a)) (.reg8 .b)).widthValid = false ∧
    Descriptor.widthValid ⟨none, none, .inc, .one, 4, policyKeep⟩ = false := by decide

/-- X7's entry (R95): INC with a Dependent Carry fails check (F). -/
def incCarryDependent : Entry :=
  ⟨0x3C, none, some (.reg8 .a), .inc, .one, 4, ⟨.dependent, .unset, .dependent, .dependent⟩⟩

/-- X6's entry (R117): kind RXC(Right) fails check (K). -/
def rotateRight : Entry := ⟨0x0F, none, some (.reg8 .a), .rxc .right, .one, 4, policyRlca⟩

theorem test_wf_entry_flags : incCarryDependent.wellFormed = false := by decide
theorem test_wf_entry_kind : rotateRight.wellFormed = false := by decide

/-! ## Decoding: the words of the table's `encoding` column -/

theorem test_decode_nop : decode [0b00000000] = .ok (⟨.nop, .none⟩, []) := rfl
theorem test_decode_ldBcD16 : decode [0b00000001, 0x34, 0x12] = .ok (⟨.ldBcD16, .d16 0x1234⟩, []) := rfl
theorem test_decode_ldBcA : decode [0b00000010] = .ok (⟨.ldBcA, .none⟩, []) := rfl
theorem test_decode_incBc : decode [0b00000011] = .ok (⟨.incBc, .none⟩, []) := rfl
theorem test_decode_incB : decode [0b00000100] = .ok (⟨.incB, .none⟩, []) := rfl
theorem test_decode_decB : decode [0b00000101] = .ok (⟨.decB, .none⟩, []) := rfl
theorem test_decode_ldBD8 : decode [0b00000110, 0x7F] = .ok (⟨.ldBD8, .d8 0x7F⟩, []) := rfl
theorem test_decode_rlca : decode [0b00000111] = .ok (⟨.rlca, .none⟩, []) := rfl
theorem test_decode_ldA16Sp : decode [0b00001000, 0x00, 0xC0] = .ok (⟨.ldA16Sp, .d16 0xC000⟩, []) := rfl
theorem test_decode_addHlBc : decode [0b00001001] = .ok (⟨.addHlBc, .none⟩, []) := rfl

/-- X2: 0xCB is one more opcode outside the table, and "the following byte is not read" (R67). -/
theorem test_decode_cb : decode [0xCB, 0x11] = .ok (⟨.unimplementedOpcode 0xCB, .none⟩, [0x11]) := rfl

/-- A byte string that ends inside an immediate is refused by name. -/
theorem test_decode_truncated : decode [0x01, 0x34] = .error (.truncated 0x01) ∧ decode [] = .error .noBytes := ⟨rfl, rfl⟩

theorem test_decodeTableWord : decodeTableWord 24 0x123401 = some .ldBcD16 ∧ decodeTableWord 8 0xFF09 = some .addHlBc := by
  decide

/-! ## The instructions -/

/-- A state with the given registers and these bytes from PC on. -/
def at_ (pc : Word) (bytes : List Byte) : State := loadBytes { State.reset with pc := pc } pc bytes

/-- R34 with every register 0x55: the second NOP vector of 95 section 2.3. -/
def all55 : State := ⟨0x55, 0x55, 0x55, 0x55, 0x55, 0x55, 0x55, 0xF0, 0x1234, 0x5555, []⟩

/-- 2.3, second vector. -/
theorem test_nop_keeps_everything : coreStep 0x00 all55 = .ok { all55 with pc := 0x1235 } 4 := by decide

/-- 2.3, first vector. -/
theorem test_nop_wraps : coreStep 0x00 (at_ 0xFFFF []) = .ok (at_ 0 []) 4 := by decide

/-- S3. -/
theorem test_ldBcD16_little_endian :
    coreStep 0x01 (at_ 0 [0x01, 0x34, 0x12]) = .ok { at_ 0 [0x01, 0x34, 0x12] with b := 0x12, c := 0x34, pc := 3 } 12 := by
  decide

/-- L1: the immediate straddles 0xFFFF. -/
theorem test_ldBcD16_straddles : coreStep 0x01 (at_ 0xFFFE [0x01, 0xCD, 0xAB]) =
    .ok { at_ 0xFFFE [0x01, 0xCD, 0xAB] with b := 0xAB, c := 0xCD, pc := 1 } 12 := by decide

/-- S4. -/
theorem test_ldBcA_stores : coreStep 0x02 { State.reset with a := 0x12, b := 0x11, c := 0x22 } =
    .ok { State.reset with a := 0x12, b := 0x11, c := 0x22, pc := 1, mem := [(0x1122, 0x12)] } 8 := by decide

/-- L3: the store falls on the opcode's own byte. -/
theorem test_ldBcA_own_opcode : coreStep 0x02 { at_ 0 [0x02] with a := 0x99 } =
    .ok { State.reset with a := 0x99, pc := 1, mem := [(0, 0x99)] } 8 := by decide

/-- I11: no flag changes on the wrap. -/
theorem test_incBc_wraps : coreStep 0x03 { State.reset with b := 0xFF, c := 0xFF, f := 0x50 } =
    .ok { State.reset with f := 0x50, pc := 1 } 8 := by decide

/-- I12: the carry goes from C into B. -/
theorem test_incBc_carries : coreStep 0x03 { State.reset with c := 0xFF } = .ok { State.reset with b := 0x01, pc := 1 } 8 := by
  decide

/-- S5a. -/
theorem test_incB_half_carry : coreStep 0x04 { State.reset with b := 0x1F } =
    .ok { State.reset with b := 0x20, f := 0x20, pc := 1 } 4 := by decide

/-- I4: the wrap leaves Carry as it was. -/
theorem test_incB_keeps_carry : coreStep 0x04 { State.reset with b := 0xFF, f := 0x10 } =
    .ok { State.reset with b := 0x00, f := 0xB0, pc := 1 } 4 := by decide

/-- I7: the borrow leaves Carry as it was. -/
theorem test_decB_wraps : coreStep 0x05 State.reset = .ok { State.reset with b := 0xFF, f := 0x60, pc := 1 } 4 := by decide

/-- I10: Zero is cleared. -/
theorem test_decB_clears_zero : coreStep 0x05 { State.reset with b := 0x20, f := 0x80 } =
    .ok { State.reset with b := 0x1F, f := 0x60, pc := 1 } 4 := by decide

/-- L5: the immediate is read past the top of memory. -/
theorem test_ldBD8_wraps : coreStep 0x06 (at_ 0xFFFF [0x06, 0x3C]) =
    .ok { at_ 0xFFFF [0x06, 0x3C] with b := 0x3C, pc := 1 } 8 := by decide

/-- L9: the caller passes 0x06 where memory holds 0x00 (R56). -/
theorem test_ldBD8_passed_opcode : coreStep 0x06 (at_ 0x0100 [0x00, 0x42]) =
    .ok { at_ 0x0100 [0x00, 0x42] with b := 0x42, pc := 0x0102 } 8 := by decide

/-- R1 of 95 section 2.7 (S7). -/
theorem test_rlca_forces_flags : coreStep 0x07 { State.reset with a := 0xBA, f := 0xE0 } =
    .ok { State.reset with a := 0x75, f := 0x10, pc := 1 } 4 := by decide

/-- R5 of 95 section 2.7: the old Carry does not enter. -/
theorem test_rlca_ignores_carry : coreStep 0x07 { State.reset with a := 0x01, f := 0x10 } =
    .ok { State.reset with a := 0x02, f := 0x00, pc := 1 } 4 := by decide

/-- L7: the store wraps from 0xFFFF to 0x0000, over the opcode. -/
theorem test_ldA16Sp_wraps : coreStep 0x08 { at_ 0 [0x08, 0xFF, 0xFF] with sp := 0x1234 } =
    .ok { State.reset with sp := 0x1234, pc := 3, mem := [(0, 0x12), (1, 0xFF), (2, 0xFF), (0xFFFF, 0x34)] } 20 := by decide

/-- L8: the store falls on the instruction's own immediate. -/
theorem test_ldA16Sp_own_immediate : coreStep 0x08 { at_ 0 [0x08, 0x01, 0x00] with sp := 0xBEEF } =
    .ok { State.reset with sp := 0xBEEF, pc := 3, mem := [(0, 0x08), (1, 0xEF), (2, 0xBE)] } 20 := by decide

/-- A7: under the default policy Z is kept. -/
theorem test_addHlBc_keeps_zero : coreStep 0x09 { State.reset with h := 0x12, l := 0x34, c := 0x01, f := 0x80 } =
    .ok { State.reset with h := 0x12, l := 0x35, c := 0x01, f := 0x80, pc := 1 } 8 := by decide

/-- A1's column "F end (D)": under the Dependent policy Z is the sum's. -/
theorem test_addHlBc_dependent :
    stepWith (decodeTable { config with add16ZeroPolicy := .dependent }) 0x09 { State.reset with h := 0xFF, l := 0xFF, c := 0x01 } =
    .ok { State.reset with c := 0x01, f := 0xB0, pc := 1 } 8 := by decide

/-- X1. -/
theorem test_unimplemented_opcode : coreStep 0x0A (at_ 0x0100 []) = .fail (.unimplementedOpcode 0x0A) := by decide

/-- X6 and X7: a table with one defective entry more. -/
theorem test_defective_entries :
    stepWith (decodeTable config ++ [rotateRight]) 0x0F State.reset = .fail (.notImplemented 0x0F) ∧
    stepWith (decodeTable config ++ [incCarryDependent]) 0x3C State.reset = .fail (.missingFlagResult 0x3C) := by decide

/-- R145, R146: the costs of the ten rows, each a multiple of 4. -/
theorem test_cycle_costs :
    (decodeTable config).map (fun e => e.cycles) = [4, 12, 8, 8, 4, 4, 8, 4, 20, 8] ∧
    ∀ e ∈ decodeTable config, e.cycles % 4 = 0 := by decide

/-! ## Flag predicates (95 section 2.1), registers and operands (95 section 2.2) -/

theorem test_add8 :
    (addHalfCarry8 0x0F 0x01, addCarry8 0x0F 0x01) = (true, false) ∧ (addHalfCarry8 0xF0 0x10, addCarry8 0xF0 0x10) = (false, true) ∧
    (addHalfCarry8 0x08 0x08, addCarry8 0x08 0x08) = (true, false) ∧
    (addHalfCarry8 0x80 0x7F, addCarry8 0x80 0x7F) = (false, false) := by decide

theorem test_sub8 :
    (subHalfCarry8 0x10 0x01, subCarry8 0x10 0x01) = (true, false) ∧ (subHalfCarry8 0x0F 0xF0, subCarry8 0x0F 0xF0) = (false, true) ∧
    (subHalfCarry8 0x05 0x05, subCarry8 0x05 0x05) = (false, false) ∧
    (subHalfCarry8 0xF0 0x0F, subCarry8 0xF0 0x0F) = (true, false) := by decide

theorem test_add16_sub16 :
    (addHalfCarry16 0x0FFF 1, addCarry16 0x0FFF 1) = (true, false) ∧
    (addHalfCarry16 0x8000 0x8000, addCarry16 0x8000 0x8000) = (false, true) ∧
    (addHalfCarry16 0x0800 0x0800, addCarry16 0x0800 0x0800) = (true, false) ∧ addHalfCarry16 0x000F 1 = false ∧
    (subHalfCarry16 0x1000 1, subCarry16 0x1000 1) = (true, false) ∧
    (subHalfCarry16 0x0FFF 0xF000, subCarry16 0x0FFF 0xF000) = (false, true) := by decide

/-- V1 to V4. -/
theorem test_pairs_and_flags_byte :
    ((State.reset.setReg16 .bc 0xA1B2).b, (State.reset.setReg16 .bc 0xA1B2).c) = (0xA1, 0xB2) ∧
    ((State.reset.setReg8 .h 0x12).setReg8 .l 0x34).getReg16 .hl = 0x1234 ∧
    (State.reset.setFlags 0xFF).f = 0xF0 ∧ ({ State.reset with f := 0xF0 }.setFlags 0x0A).f = 0x00 := by decide

/-- V5, V6, V8, V10 to V12. -/
theorem test_resolver :
    get16 { State.reset with mem := [(0, 0x12), (0xFFFF, 0x34)] } (.imm16 0xFFFF) = some 0x1234 ∧
    set16 { State.reset with h := 0xC0 } (.indirect (.reg16 .hl)) 0xBEEF =
      some { State.reset with h := 0xC0, mem := [(0xC000, 0xEF), (0xC001, 0xBE)] } ∧
    set8 State.reset (.imm8 0x0200) 0x77 = some { State.reset with mem := [(0x0200, 0x77)] } ∧
    set16 { State.reset with h := 0xFF, l := 0xFF } (.indirect (.reg16 .hl)) 0xABCD =
      some { State.reset with h := 0xFF, l := 0xFF, mem := [(0, 0xAB), (0xFFFF, 0xCD)] } ∧
    get16 State.reset (.reg8 .a) = none ∧ get8 State.reset (.indirect (.reg8 .a)) = none := by decide

/-- Writing 0x00, what an unlisted address reads as, takes the cell out: equal memories are equal data (R37). -/
theorem test_memory_canonical : Memory.write8 [(5, 7)] 5 0 = [] ∧ Memory.write8 [(5, 7)] 3 1 = [(3, 1), (5, 7)] := by decide

/-! ## Witnesses: a state and operands that meet the hypotheses of each statement -/

/-- DecodeOfEncodeIsTheInstruction, at the least opcode of the default row and at the greatest immediate. -/
theorem witness_decodeOfEncode :
    AsmInstr.wf ⟨.unimplementedOpcode 0x0A, .none⟩ = true ∧ AsmInstr.wf ⟨.ldA16Sp, .d16 0xFFFF⟩ = true := by decide

/-- EncodeOfDecodeIsTheBytes. -/
theorem witness_encodeOfDecode : decode [0x06, 0xFF, 0x00] = .ok (⟨.ldBD8, .d8 0xFF⟩, [0x00]) := rfl

/-- StepRunsTheDecodedInstruction and the d16 clause of ResolverReadsTheDecodedImmediate, at the top of memory. -/
theorem witness_step_decodes : decode (fetchBytes (at_ 0xFFFE [0x01, 0xCD, 0xAB])) = .ok (⟨.ldBcD16, .d16 0xABCD⟩, []) := rfl

/-- The d8 clause of ResolverReadsTheDecodedImmediate, at the top of memory. -/
theorem witness_step_decodes_d8 : decode (fetchBytes (at_ 0xFFFF [0x06, 0x3C])) = .ok (⟨.ldBD8, .d8 0x3C⟩, [0x00]) := rfl

/-- ATableWordAtPcIsWhatTheNextStepRuns. -/
theorem witness_tableWord : decodeTableWord 24 0xFFFF08 = some .ldA16Sp := by decide

/-- EachSpellingNamesOneInstruction: both sides of its conclusion. -/
theorem witness_spelling :
    Instr.spelling .nop = Instr.spelling .nop ∧
    Instr.spelling (.unimplementedOpcode 0x0A) = Instr.spelling (.unimplementedOpcode 0xFF) := ⟨rfl, rfl⟩

/-- StoreAToBcResult: BC at the top of memory. -/
theorem witness_storeAddress_bc :
    storeAddress { State.reset with b := 0xFF, c := 0xFF } (.indirect (.reg16 .bc)) = some 0xFFFF := by decide

/-- StoreSpResult: the address word is 0xFFFF. -/
theorem witness_storeAddress_a16 : storeAddress (at_ 0 [0x08, 0xFF, 0xFF]) (.indirect (.imm16 1)) = some 0xFFFF := by decide

/-- AddHlBcZeroFlagUnderEachPolicy: the inner step, under the other policy. -/
theorem witness_add_other_policy :
    stepWith (decodeTable { config with add16ZeroPolicy := .dependent }) 0x09 State.reset =
      .ok { State.reset with f := 0x80, pc := 1 } 8 := by decide

/-- OpcodesOutsideTheTableFailAndChangeNothing: the boundary 0x0A, and 0x09 on its other side, which completes. -/
theorem witness_opcode_boundary :
    0x0A ≤ (0x0A : Byte).toNat ∧ coreStep 0x0A State.reset = .fail (.unimplementedOpcode 0x0A) ∧
    ¬ 0x0A ≤ (0x09 : Byte).toNat ∧ coreStep 0x09 State.reset = .ok { State.reset with pc := 1 } 8 := by decide

/-- StaticChecksDecideEveryFailure: each of its four cases, the first where two other checks fail as well. -/
theorem witness_static_checks :
    firstStaticFailure 0x0F ⟨none, none, .rxc .right, .one, 4, policyInc8⟩ = some (.notImplemented 0x0F) ∧
    firstStaticFailure 0x10 ⟨none, none, .inc, .one, 4, policyRlca⟩ = some (.invalidOperandWidth 0x10) ∧
    firstStaticFailure 0x3C (incCarryDependent.descriptor 0) = some (.missingFlagResult 0x3C) ∧
    firstStaticFailure 0x00 ((entryNop config).descriptor 0) = none := by decide

/-- RotateRightIsNotImplemented: the kind, and a failure with NotImplemented of an Instruction and of a step. -/
theorem witness_rotate_right : (rotateRight.descriptor 0).kind = .rxc .right ∧
    runDescriptor 0x0F (rotateRight.descriptor 0) State.reset = .fail (.notImplemented 0x0F) ∧
    stepWith [rotateRight] 0x0F State.reset = .fail (.notImplemented 0x0F) := by decide

/-- EveryFailureCarriesItsOpcode: codes 1 and 4, and each side of its equivalence. -/
theorem witness_failure_codes :
    stepWith [rotateRight] 0x0F State.reset = .fail (.notImplemented 0x0F) ∧ (Fault.notImplemented 0x0F).code = 4 ∧
    stepWith [rotateRight] 0x10 State.reset = .fail (.unimplementedOpcode 0x10) ∧ (∀ e ∈ [rotateRight], e.opcode ≠ 0x10) := by
  decide

/-- EveryTableEntryIsWellFormed, EveryDecodedStepAdvancesPcAndReportsItsStaticCost: the table's last entry. -/
theorem witness_table_entry : entryAddHlBc config ∈ decodeTable config := by decide

/-- RegistersOutsideTheWriteTableAreKept, NoInstructionReadsOrWritesDAndE, NoInstructionReadsAFlag (for a flag it writes). -/
theorem witness_exec_incB : exec .incB State.reset = .next { State.reset with b := 1, pc := 1 } ∧
    ¬ writesReg .incB .c ∧ writesFlag config .incB .zero ∧ ¬ writesFlag config .incB .carry :=
  ⟨rfl, nofun, .inl rfl, by simp [writesFlag]⟩

/-- FlagsOutsideTheWriteTableAreKept: Z of ADD HL,BC under this machine's policy. -/
theorem witness_flags_kept :
    (∃ t, exec .addHlBc State.reset = .next t) ∧ ¬ writesFlag config .addHlBc .zero := ⟨⟨_, rfl⟩, by simp [writesFlag, config]⟩

/-- InstructionsThatStoreNothingKeepMemory. -/
theorem witness_no_store : Instr.rlca ≠ .ldBcA ∧ Instr.rlca ≠ .ldA16Sp ∧ ∃ t, exec .rlca State.reset = .next t :=
  ⟨by decide, by decide, _, rfl⟩

/-- TheCoreNeverReadsTheOpcodeByte, where the instruction stores over its own opcode byte. -/
theorem witness_opcode_not_read :
    coreStep 0x02 { State.reset with a := 0x99 } = .ok { State.reset with a := 0x99, pc := 1, mem := [(0, 0x99)] } 8 := by decide

/-- AStoreIsSeenByTheNextFetch, with PC at the top of memory. -/
theorem witness_store_next : joinBytes ({ State.reset with pc := 0xFFFF } : State).b 0 = (0xFFFF : Word) + 1 := by decide

/-- NopBodyHasNoOperandEffects. -/
theorem witness_nop_body :
    runDescriptor 0 ((entryNop config).descriptor 0) State.reset = .ok { State.reset with pc := 1 } 4 ∧
    ∀ x, ((entryNop config).descriptor 0).policy.get x = .unmodified := ⟨by decide, by intro x; cases x <;> rfl⟩

/-- LoadBodyCopiesAtTheSourceWidth: both widths, from the source, and from the destination where the source has none. -/
theorem witness_ld_widths :
    ((ldOf (.reg8 .a) (.indirect (.reg16 .bc))).widthValid, (Operand.width (.reg8 .a)).or none) = (true, some .w8) ∧
    ((ldOf (.reg16 .sp) (.indirect (.imm16 1))).widthValid, (Operand.width (.reg16 .sp)).or none) = (true, some .w16) ∧
    ((ldOf (.indirect (.reg16 .hl)) (.reg8 .b)).widthValid, Operand.width (.indirect (.reg16 .hl))) = (true, none) ∧
    (ldOf (.indirect (.reg16 .hl)) (.reg16 .bc)).widthValid = true := by decide

/-- IncDecBodiesAtBothWidths: each of its four cases. -/
theorem witness_incDec_widths : ∀ k ∈ [OpKind.inc, OpKind.dec], ∀ d ∈ [Operand.reg8 .b, Operand.reg16 .bc],
    Descriptor.widthValid ⟨none, some d, k, .one, 4, policyKeep⟩ = true ∧ d.width ≠ none := by decide

/-- AddBodySumsSixteenBitOperands. -/
theorem witness_add_body : ((entryAddHlBc config).descriptor 0).widthValid = true := by decide

/-- ModifyFlagsFollowsEachPolicy, ForcedFlagsIgnoreTheOperation: all four policies at once, and the failing case. -/
theorem witness_modifyFlags :
    modifyFlags 0x40 ⟨.set, .unmodified, .unset, .dependent⟩ ⟨none, none, none, some true⟩ = some 0xD0 ∧
    modifyFlags 0 ⟨.dependent, .unmodified, .unmodified, .unmodified⟩ ⟨none, none, none, none⟩ = none := by decide

/-- SetThenGetReturnsTheValueWritten: both widths through an Indirect over a register. -/
theorem witness_round_trip :
    set8 State.reset (.indirect (.reg16 .bc)) 7 = some { State.reset with mem := [(0, 7)] } ∧
    set16 State.reset (.indirect (.reg16 .hl)) 0x0102 = some { State.reset with mem := [(0, 2), (1, 1)] } ∧
    storeAddress { State.reset with mem := [(0, 2), (1, 1)] } (.indirect (.reg16 .hl)) =
      storeAddress State.reset (.indirect (.reg16 .hl)) := by decide

/-- IndirectWritesChangeOnlyTheAddressedBytes, through two levels and at the top of memory. -/
theorem witness_indirect :
    get16 { State.reset with mem := [(0, 0xFF), (1, 0xFF)] } (.indirect (.reg16 .bc)) = some 0xFFFF := by decide

/-- MemoryIsATotalFunctionOfTheAddress. -/
theorem witness_memory : Memory.wf [(0, 1), (0xFFFF, 2)] = true := by decide

/-- EveryStepKeepsTheInvariant, StepsOverAnyTableKeepTheInvariant: a state with a flag set and memory listed. -/
theorem witness_invariant :
    State.Inv { at_ 0 [0x04] with b := 0xFF, f := 0x10 } ∧
    (∃ t, step { at_ 0 [0x04] with b := 0xFF, f := 0x10 } = .next t) ∧
    ∃ t n, stepWith [entryIncB config] 0x04 { at_ 0 [0x04] with b := 0xFF, f := 0x10 } = .ok t n :=
  ⟨⟨rfl, rfl⟩, ⟨_, rfl⟩, ⟨_, _, rfl⟩⟩

/-- EveryReachableStateMeetsTheInvariant: after a host write of the flags byte and a step. -/
theorem witness_reachable : ∃ t, Reachable t ∧ t.f = 0xF0 ∧ t.pc = 1 :=
  ⟨_, .step 0x00 (cycles := 4) (.host (.flags 0xFF) .reset) rfl, rfl, rfl⟩

/-- EveryHostWriteKeepsTheInvariant: a write of the flags byte and of AF whose low nibble is not 0. -/
theorem witness_host_write : State.Inv { State.reset with f := 0x10, mem := [(5, 7)] } ∧
    (hostWrite { State.reset with f := 0x10 } (.flags 0xFF)).f = 0xF0 ∧
    (hostWrite { State.reset with f := 0x10 } (.af 0x12AB)).f = 0xA0 := ⟨⟨rfl, rfl⟩, rfl, rfl⟩

/-- ARunFailsOnlyAtAnOpcodeOutsideTheTable: two steps, then 0x10; the run of two is safe. -/
theorem witness_failed_run : (runCaller 5 (at_ 0xFFFF [0x00, 0x00, 0x10])).failed = some (.unimplementedOpcode 0x10) ∧
    SafeRun 2 (at_ 0xFFFF [0x00, 0x00, 0x10]) ∧ ¬ (runCaller 2 (at_ 0xFFFF [0x00, 0x00, 0x10])).final.decodes := by
  simp only [SafeRun, State.decodes]; decide

/-- TheCallerLoopIteratesTheStep. -/
theorem witness_safe_run : SafeRun 1 (at_ 0 [0x00, 0x04]) ∧
    ∃ t c, coreStep (fetchOpcode (runCaller 1 (at_ 0 [0x00, 0x04])).final) (runCaller 1 (at_ 0 [0x00, 0x04])).final = .ok t c :=
  ⟨rfl, _, _, rfl⟩

/-- EmptyMemoryRunsNopsForever. -/
theorem witness_empty_memory : ∀ addr, Memory.read8 State.reset.mem addr = 0 := fun _ => rfl

/-- ForcedFlagsIgnoreTheOperation: a state with A = 0 and Z set. -/
theorem witness_zero_a : ({ State.reset with f := 0x80 } : State).a = 0 := rfl

end Sys2Proof.Tests
end

section
/-! The half-carry predicates as bits of the result: at every width, the bit where a sum or a difference departs from the carry-less
sum is the carry or the borrow that enters it. -/

namespace Sys2Proof.Machine

/-- The bit at which a sum differs from the carry-less sum is the carry into it. -/
theorem getLsbD_xor_add {w i : Nat} (hi : i < w) (a b : BitVec w) :
    (a ^^^ b ^^^ (a + b)).getLsbD i = decide (2 ^ i ≤ a.toNat % 2 ^ i + b.toNat % 2 ^ i) := by
  have hcancel : ∀ x y c : Bool, (x ^^ y ^^ (x ^^ (y ^^ c))) = c := by decide
  rw [BitVec.getLsbD_xor, BitVec.getLsbD_xor, BitVec.getLsbD_add hi, hcancel]
  rfl

/-- Adding back what was subtracted carries out of the low `i` bits exactly when the subtraction borrowed there. -/
theorem carry_sub_iff_borrow {w i : Nat} (hi : i < w) (a b : BitVec w) :
    2 ^ i ≤ (a - b).toNat % 2 ^ i + b.toNat % 2 ^ i ↔ a.toNat % 2 ^ i < b.toNat % 2 ^ i := by
  have hlow : a.toNat % 2 ^ i = ((a - b).toNat + b.toNat) % 2 ^ i := by
    rw [← Nat.mod_mod_of_dvd ((a - b).toNat + b.toNat) (Nat.pow_dvd_pow 2 hi.le), ← BitVec.toNat_add, BitVec.sub_add_cancel]
  have hd : (a - b).toNat % 2 ^ i < 2 ^ i := Nat.mod_lt _ (Nat.two_pow_pos i)
  rw [Nat.add_mod_eq_ite] at hlow
  split at hlow <;> omega

/-- The bit at which a difference differs from the carry-less sum is the borrow from it: `a` is the sum of `a - b` and `b`. -/
theorem getLsbD_xor_sub {w i : Nat} (hi : i < w) (a b : BitVec w) :
    (a ^^^ b ^^^ (a - b)).getLsbD i = decide (a.toNat % 2 ^ i < b.toNat % 2 ^ i) := by
  calc (a ^^^ b ^^^ (a - b)).getLsbD i
    _ = ((a - b) ^^^ b ^^^ (a - b + b)).getLsbD i := by
      rw [BitVec.sub_add_cancel, BitVec.xor_comm (a ^^^ b), BitVec.xor_comm a, BitVec.xor_assoc]
    _ = decide (a.toNat % 2 ^ i < b.toNat % 2 ^ i) := by
      rw [getLsbD_xor_add hi, decide_eq_decide]
      exact carry_sub_iff_borrow hi a b

/-- The mask of the low nibble is the remainder by 16. -/
theorem toNat_and_lowNibble (a : Byte) : (a &&& 0xF).toNat = a.toNat % 2 ^ 4 :=
  Nat.and_two_pow_sub_one_eq_mod a.toNat 4

/-- The mask of the low 12 bits is the remainder by 4096. -/
theorem toNat_and_low12 (a : Word) : (a &&& 0xFFF).toNat = a.toNat % 2 ^ 12 :=
  Nat.and_two_pow_sub_one_eq_mod a.toNat 12

theorem addHalfCarry8_eq_bit (a b : Byte) : addHalfCarry8 a b = (a ^^^ b ^^^ (a + b)).getLsbD 4 := by
  rw [getLsbD_xor_add (by decide), addHalfCarry8, toNat_and_lowNibble, toNat_and_lowNibble]
  rfl

theorem subHalfCarry8_eq_bit (a b : Byte) : subHalfCarry8 a b = (a ^^^ b ^^^ (a - b)).getLsbD 4 := by
  rw [getLsbD_xor_sub (by decide), subHalfCarry8, toNat_and_lowNibble, toNat_and_lowNibble]

theorem addHalfCarry16_eq_bit (a b : Word) : addHalfCarry16 a b = (a ^^^ b ^^^ (a + b)).getLsbD 12 := by
  rw [getLsbD_xor_add (by decide), addHalfCarry16, toNat_and_low12, toNat_and_low12]
  rfl

theorem subHalfCarry16_eq_bit (a b : Word) : subHalfCarry16 a b = (a ^^^ b ^^^ (a - b)).getLsbD 12 := by
  rw [getLsbD_xor_sub (by decide), subHalfCarry16, toNat_and_low12, toNat_and_low12]

/-- With a borrow the integer difference is negative, which no wrapped difference is; without one the difference does not wrap. -/
theorem subCarry16_iff_wraps (a b : Word) :
    subCarry16 a b = true ↔ (a - b).toNat ≠ (a.toNat : Int) - b.toNat := by
  rw [subCarry16, decide_eq_true_iff]
  constructor
  · intro hborrow
    omega
  · intro hwraps
    by_contra hle
    have hdiff : (a - b).toNat = a.toNat - b.toNat := BitVec.toNat_sub_of_le (Nat.le_of_not_lt hle)
    omega

/-- Settles O39, from the carry and the borrow into a bit at any width. -/
theorem halfCarryIsTheCarryIntoTheUpperPart : Obligations.HalfCarryIsTheCarryIntoTheUpperPart :=
  ⟨fun a b => ⟨addHalfCarry8_eq_bit a b, subHalfCarry8_eq_bit a b⟩,
    fun a b => ⟨addHalfCarry16_eq_bit a b, subHalfCarry16_eq_bit a b, subCarry16_iff_wraps a b⟩⟩

end Sys2Proof.Machine
end

section
/-! The registers and the flags byte: a read after a write, at any two of them. -/

namespace Sys2Proof.Machine

variable (s : State) (r r' : Reg8) (v : Byte) (w : Word)

/-- A register read after a register write, at any two registers (R17). -/
theorem getReg8_setReg8 : (s.setReg8 r v).getReg8 r' = if r' = r then v else s.getReg8 r' := by
  cases r <;> cases r' <;> rfl

@[simp] theorem getReg8_setReg8_same : (s.setReg8 r v).getReg8 r = v := by
  rw [getReg8_setReg8, if_pos rfl]

theorem getReg8_setReg8_other {r r' : Reg8} (h : r' ≠ r) : (s.setReg8 r v).getReg8 r' = s.getReg8 r' := by
  rw [getReg8_setReg8, if_neg h]

/-- Settles O44, from the read after a write. -/
theorem eightBitRegistersAreIndependent : Obligations.EightBitRegistersAreIndependent := fun s r v =>
  ⟨getReg8_setReg8_same s r v, fun _ h => getReg8_setReg8_other s v h,
    setReg8_f s r v, setReg8_pc s r v, setReg8_sp s r v, setReg8_mem s r v⟩

/-- `p` is a view of two different registers: it reads them joined, and a write of it is a write of each (R18). -/
structure IsPairOf (p : Reg16) (hi lo : Reg8) : Prop where
  hi_ne_lo : hi ≠ lo
  getReg16_eq : ∀ s : State, s.getReg16 p = joinBytes (s.getReg8 hi) (s.getReg8 lo)
  setReg16_eq : ∀ (s : State) (w : Word), s.setReg16 p w = (s.setReg8 hi (hiByte w)).setReg8 lo (loByte w)

theorem isPairOf_bc : IsPairOf .bc .b .c := ⟨by decide, fun _ => rfl, fun _ _ => rfl⟩
theorem isPairOf_de : IsPairOf .de .d .e := ⟨by decide, fun _ => rfl, fun _ _ => rfl⟩
theorem isPairOf_hl : IsPairOf .hl .h .l := ⟨by decide, fun _ => rfl, fun _ _ => rfl⟩

section
variable {p : Reg16} {hi lo : Reg8} (hp : IsPairOf p hi lo)
include hp

theorem getReg8_setReg16_hi : (s.setReg16 p w).getReg8 hi = hiByte w := by
  rw [hp.setReg16_eq, getReg8_setReg8_other _ _ hp.hi_ne_lo, getReg8_setReg8_same]

theorem getReg8_setReg16_lo : (s.setReg16 p w).getReg8 lo = loByte w := by
  rw [hp.setReg16_eq, getReg8_setReg8_same]

theorem getReg8_setReg16_other (hhi : r ≠ hi) (hlo : r ≠ lo) : (s.setReg16 p w).getReg8 r = s.getReg8 r := by
  rw [hp.setReg16_eq, getReg8_setReg8_other _ _ hlo, getReg8_setReg8_other _ _ hhi]

theorem getReg16_setReg16 : (s.setReg16 p w).getReg16 p = w := by
  rw [hp.getReg16_eq, getReg8_setReg16_hi s w hp, getReg8_setReg16_lo s w hp, joinBytes_hiByte_loByte]

theorem setReg16_pair_sp : (s.setReg16 p w).sp = s.sp := by
  rw [hp.setReg16_eq, setReg8_sp, setReg8_sp]

end

/-- Settles O45: each of the three pairs is a view of its two registers, and what a view reads and writes is said once. -/
theorem pairsAreViewsOfTheirTwoRegisters : Obligations.PairsAreViewsOfTheirTwoRegisters := by
  intro s v ph hph
  have hp : IsPairOf ph.1 ph.2.1 ph.2.2 := by
    simp only [List.mem_cons, List.not_mem_nil, or_false] at hph
    obtain rfl | rfl | rfl := hph
    · exact isPairOf_bc
    · exact isPairOf_de
    · exact isPairOf_hl
  refine ⟨?_, getReg16_setReg16 s v hp, ?_, ?_, fun r => getReg8_setReg16_other s r v hp,
    setReg16_f s _ v, setReg16_pc s _ v, setReg16_pair_sp s v hp, setReg16_mem s _ v⟩
  · rw [hp.getReg16_eq, toNat_joinBytes]
  · rw [getReg8_setReg16_hi s v hp, toNat_hiByte]
  · rw [getReg8_setReg16_lo s v hp, toNat_loByte]

/-- Settles O42, from the bits of a flags byte after one flag is written. -/
theorem eachFlagIsReadAndWrittenOnItsOwn : Obligations.EachFlagIsReadAndWrittenOnItsOwn := by
  intro s x v
  refine ⟨getLsbD_setFlagBit_same s.f x v, fun j hj => ?_, rfl, Iff.rfl⟩
  rw [setFlag_f, getLsbD_setFlagBit, if_neg hj]

/-- A stored flags byte keeps bits 7..4 and drops bits 3..0 (R23, D11). -/
theorem toNat_and_highNibble : (v &&& 0xF0).toNat = v.toNat / 16 * 16 := by
  have hshift : v &&& (0xF0 : Byte) = (v >>> 4) <<< 4 := by
    apply BitVec.eq_of_getLsbD_eq
    intro j hj
    interval_cases j <;> simp
  have hlt := v.isLt
  rw [hshift, BitVec.toNat_shiftLeft, BitVec.toNat_ushiftRight, Nat.shiftLeft_eq, Nat.shiftRight_eq_div_pow]
  omega

/-- Each flag's bit is above the low nibble, so it reads its bit of the byte written. -/
theorem getFlag_setFlags (x : Flag) : (s.setFlags v).getFlag x = v.getLsbD x.bit := by
  cases x <;> simp [State.getFlag, Flag.bit]

/-- Settles O43: a stored flags byte is its high nibble, and AF's low byte is written as one. -/
theorem flagsByteAfAndSpWritesChangeOnlyTheirField : Obligations.FlagsByteAfAndSpWritesChangeOnlyTheirField := by
  intro s v w
  have hf : (s.setAF w).f.toNat = w.toNat % 256 / 16 * 16 := by
    rw [setAF_f, toNat_and_highNibble, toNat_loByte]
  have haf : (s.setAF w).getAF.toNat = w.toNat / 16 * 16 := by
    rw [State.getAF, toNat_joinBytes, hf, setAF_a, toNat_hiByte]
    omega
  exact ⟨⟨toNat_and_highNibble v, getFlag_setFlags s v .zero, getFlag_setFlags s v .subtract,
      getFlag_setFlags s v .halfCarry, getFlag_setFlags s v .carry, rfl⟩,
    ⟨haf, toNat_hiByte w, hf, rfl⟩, ⟨rfl, rfl⟩⟩

end Sys2Proof.Machine
end

section
/-! The invariant: reset meets it, and every step over any table and every host write keeps it. -/

namespace Sys2Proof.Machine

/-- Settles O52: every field of the reset state is zero, and its memory lists no byte. -/
theorem resetIsAllZero : Obligations.ResetIsAllZero :=
  ⟨fun r => by cases r <;> rfl, fun p => by cases p <;> rfl, rfl, rfl, fun x => by cases x <;> rfl, rfl, rfl, fun _ => rfl⟩

/-- Settles O53: the reset memory lists no byte, and F is zero. -/
theorem resetMeetsTheInvariant : Obligations.ResetMeetsTheInvariant := ⟨wf_reset, rfl⟩

/-- A write of data keeps the invariant: F stays as it is. -/
theorem DataWriteOnly.inv {s s' : State} (h : DataWriteOnly s s') (hs : s.Inv) : s'.Inv := by
  obtain ⟨hmem, hf⟩ := hs
  exact ⟨h.wf_mem hmem, by rw [h.f_eq, hf]⟩

/-- An Instruction, whatever its kind, operands and policy: the body writes data only, and the commit keeps F's low nibble. -/
theorem runDescriptor_inv {op : Byte} {i : Descriptor} {s t : State} {n : Nat}
    (hs : s.Inv) (h : runDescriptor op i s = .ok t n) : t.Inv := by
  obtain ⟨-, -, -, -, s', fr, f, hbody, hflags, rfl⟩ := runDescriptor_ok h
  obtain ⟨hmem, hf⟩ := (execBody_dataWriteOnly hbody).inv hs
  exact ⟨hmem, modifyFlags_lowNibble hflags hf⟩

/-- Settles O55: a step that succeeds ran an Instruction, and every Instruction keeps the invariant. -/
theorem stepsOverAnyTableKeepTheInvariant : Obligations.StepsOverAnyTableKeepTheInvariant := by
  intro table op s t n hs h
  obtain ⟨i, -, hrun⟩ := stepWith_ok h
  exact runDescriptor_inv hs hrun

/-- An instruction that answers a next state has a table entry, and the entry's run answers that state. -/
theorem exec_next {i : Instr} {s t : State} (h : exec i s = .next t) :
    ∃ e n, instrEntry config i = some e ∧ runEntry e s = .ok t n := by
  cases hi : instrEntry config i with
  | some e =>
    rw [exec_of_entry hi] at h
    obtain ⟨n, hn⟩ := toOutcome_next h
    exact ⟨e, n, rfl, hn⟩
  | none =>
    cases i with
    | unimplementedOpcode op => cases h
    | _ => cases hi

/-- Settles O54: a step that answers a next state ran the table entry of the decoded instruction. -/
theorem everyStepKeepsTheInvariant : Obligations.EveryStepKeepsTheInvariant := by
  intro s t hs h
  obtain ⟨e, n, -, hrun⟩ := exec_next h
  exact runDescriptor_inv hs hrun

/-- Bits 3..0 of a stored flags byte are zero (R23, D11). -/
theorem lowNibble_and_highNibble (v : Byte) : v &&& 0xF0 &&& 0x0F = 0 := by
  rw [BitVec.and_assoc]
  exact BitVec.and_zero

/-- Settles O60: a write of a register, a pair, SP or a byte of memory is the operand resolver's write of data, and each write that
reaches F leaves its low nibble zero. -/
theorem everyHostWriteKeepsTheInvariant : Obligations.EveryHostWriteKeepsTheInvariant := by
  intro s w hs
  have ⟨hmem, hf⟩ := hs
  cases w with
  | reg8 r v => exact (set8_dataWriteOnly (d := .reg8 r) rfl).inv hs
  | reg16 p v => exact (set16_dataWriteOnly (d := .reg16 p) rfl).inv hs
  | mem addr v => exact (set8_dataWriteOnly (d := .imm8 addr) rfl).inv hs
  | af v => exact ⟨hmem, lowNibble_and_highNibble (loByte v)⟩
  | flag x v => exact ⟨hmem, lowNibble_setFlagBit x v hf⟩
  | flags v => exact ⟨hmem, lowNibble_and_highNibble v⟩
  | pc v => exact ⟨hmem, hf⟩

/-- Settles O56, by induction on the session. -/
theorem everyReachableStateMeetsTheInvariant : Obligations.EveryReachableStateMeetsTheInvariant := by
  intro s hs
  induction hs with
  | reset => exact resetMeetsTheInvariant
  | step op _ h ih => exact stepsOverAnyTableKeepTheInvariant _ op _ _ _ ih h
  | host w _ ih => exact everyHostWriteKeepsTheInvariant _ w ih

end Sys2Proof.Machine
end

section
/-! The next state of each instruction as a function of the state, and what that function leaves alone. -/

namespace Sys2Proof.Machine

/-- F after an instruction from the state `s` and a flags byte `f`; the values written come from `s`'s other fields. -/
def flagsAfter (i : Instr) (s : State) (f : Byte) : Byte :=
  match i with
  | .incB => flagsAfterStep f (s.b + 1) false (addHalfCarry8 s.b 1)
  | .decB => flagsAfterStep f (s.b - 1) true (subHalfCarry8 s.b 1)
  | .rlca => flagsAfterRotate f (s.a.getLsbD 7)
  | .addHlBc => flagsAfterAdd config.add16ZeroPolicy f (joinBytes s.h s.l) (joinBytes s.b s.c)
  | .nop | .ldBcD16 | .ldBcA | .incBc | .ldBD8 | .ldA16Sp | .unimplementedOpcode _ => f

/-- The state after an instruction: its one write of data, then F and PC. The default row changes nothing. -/
def effect (i : Instr) (s : State) : State :=
  match i with
  | .nop => { s with pc := s.pc + 1 }
  | .ldBcD16 => { s.setReg16 .bc (Memory.read16 s.mem (s.pc + 1)) with pc := s.pc + 3 }
  | .ldBcA => { s with mem := Memory.write8 s.mem (joinBytes s.b s.c) s.a, pc := s.pc + 1 }
  | .incBc => { s.setReg16 .bc (joinBytes s.b s.c + 1) with pc := s.pc + 1 }
  | .incB => { s.setReg8 .b (s.b + 1) with f := flagsAfter .incB s s.f, pc := s.pc + 1 }
  | .decB => { s.setReg8 .b (s.b - 1) with f := flagsAfter .decB s s.f, pc := s.pc + 1 }
  | .ldBD8 => { s.setReg8 .b (Memory.read8 s.mem (s.pc + 1)) with pc := s.pc + 2 }
  | .rlca => { s.setReg8 .a (rotateLeftCircular s.a) with f := flagsAfter .rlca s s.f, pc := s.pc + 1 }
  | .ldA16Sp => { s with mem := Memory.write16 s.mem (Memory.read16 s.mem (s.pc + 1)) s.sp, pc := s.pc + 3 }
  | .addHlBc => { s.setReg16 .hl (joinBytes s.h s.l + joinBytes s.b s.c) with
      f := flagsAfter .addHlBc s s.f, pc := s.pc + 1 }
  | .unimplementedOpcode _ => s

/-- The run of an instruction's entry ends in its effect. -/
theorem runEntry_effect {i : Instr} {e : Entry} (h : instrEntry config i = some e) (s : State) :
    runEntry e s = .ok (effect i s) e.cycles := by
  cases i <;> cases h
  case nop => exact runEntry_nop config s
  case ldBcD16 => exact runEntry_ldBcD16 config s
  case ldBcA => exact runEntry_ldBcA config s
  case incBc => exact runEntry_incBc config s
  case incB => exact runEntry_incB config s
  case decB => exact runEntry_decB config s
  case ldBD8 => exact runEntry_ldBD8 config s
  case rlca => exact runEntry_rlca config s
  case ldA16Sp => exact runEntry_ldA16Sp config s
  case addHlBc => exact runEntry_addHlBc config s

theorem exec_effect {i : Instr} {e : Entry} (h : instrEntry config i = some e) (s : State) :
    exec i s = .next (effect i s) := by
  rw [exec_of_entry h, runEntry_effect h, toOutcome_ok]

/-- An instruction that answers a next state answers its effect, from this state and from every other. -/
theorem exec_eq_effect {i : Instr} {s t : State} (h : exec i s = .next t) :
    t = effect i s ∧ ∀ s', exec i s' = .next (effect i s') := by
  obtain ⟨e, n, hi, -⟩ := exec_next h
  rw [exec_effect hi] at h
  cases h
  exact ⟨rfl, exec_effect hi⟩

theorem effect_sp (i : Instr) (s : State) : (effect i s).sp = s.sp := by cases i <;> rfl

/-- The registers outside R27's table are kept: each row writes at most one register or one pair. -/
theorem getReg8_effect {i : Instr} {r : Reg8} (s : State) (h : ¬ writesReg i r) :
    (effect i s).getReg8 r = s.getReg8 r := by
  cases i with
  | incB | decB | ldBD8 | rlca => exact getReg8_setReg8_other s _ h
  | ldBcD16 | incBc =>
    obtain ⟨hb, hc⟩ := not_or.mp h
    exact getReg8_setReg16_other s r _ isPairOf_bc hb hc
  | addHlBc =>
    obtain ⟨hh, hl⟩ := not_or.mp h
    exact getReg8_setReg16_other s r _ isPairOf_hl hh hl
  | nop | ldBcA | ldA16Sp | unimplementedOpcode => cases r <;> rfl

/-- Settles O27, from what an instruction's effect leaves of the registers. -/
theorem registersOutsideTheWriteTableAreKept : Obligations.RegistersOutsideTheWriteTableAreKept := by
  intro i s t h
  obtain ⟨rfl, -⟩ := exec_eq_effect h
  exact ⟨effect_sp i s, fun r hr => getReg8_effect s hr⟩

theorem effect_d (i : Instr) (s : State) : (effect i s).d = s.d := by cases i <;> rfl
theorem effect_e (i : Instr) (s : State) : (effect i s).e = s.e := by cases i <;> rfl

/-- Another D and E change D and E alone. -/
theorem effect_withDE (i : Instr) (s : State) (d e : Byte) :
    effect i { s with d := d, e := e } = { effect i s with d := d, e := e } := by
  cases i <;> rfl

/-- Settles O31, from the effect at D and E and the effect with another D and E. -/
theorem noInstructionReadsOrWritesDAndE : Obligations.NoInstructionReadsOrWritesDAndE := by
  intro i s t d e h
  obtain ⟨rfl, hexec⟩ := exec_eq_effect h
  exact ⟨effect_d i s, effect_e i s, by rw [hexec, effect_withDE]⟩

/-- Another flags byte changes F alone. -/
theorem effect_withFlags (i : Instr) (s : State) (f : Byte) :
    effect i { s with f := f } = { effect i s with f := flagsAfter i s f } := by
  cases i <;> rfl

theorem effect_f (i : Instr) (s : State) : (effect i s).f = flagsAfter i s s.f :=
  congrArg State.f (effect_withFlags i s s.f)

/-- Every bit of F after an 8-bit INC or DEC. -/
theorem getLsbD_flagsAfterStep (f new : Byte) (sub half : Bool) (j : Nat) :
    (flagsAfterStep f new sub half).getLsbD j =
      if j = Flag.halfCarry.bit then half else if j = Flag.subtract.bit then sub
      else if j = Flag.zero.bit then new == 0 else f.getLsbD j := by
  simp only [flagsAfterStep, getLsbD_setFlagBit]

/-- Every bit of F after RLCA. -/
theorem getLsbD_flagsAfterRotate (f : Byte) (carry : Bool) (j : Nat) :
    (flagsAfterRotate f carry).getLsbD j =
      if j = Flag.carry.bit then carry else if j = Flag.halfCarry.bit then false
      else if j = Flag.subtract.bit then false else if j = Flag.zero.bit then false else f.getLsbD j := by
  simp only [flagsAfterRotate, getLsbD_setFlagBit]

/-- Every bit of F after ADD HL,BC. -/
theorem getLsbD_flagsAfterAdd (p : Add16ZeroPolicy) (f : Byte) (a b : Word) (j : Nat) :
    (flagsAfterAdd p f a b).getLsbD j =
      if j = Flag.carry.bit then addCarry16 a b else if j = Flag.halfCarry.bit then addHalfCarry16 a b
      else if j = Flag.subtract.bit then false
      else if j = Flag.zero.bit ∧ p = .dependent then a + b == 0 else f.getLsbD j := by
  cases p <;> simp [flagsAfterAdd, getLsbD_setFlagBit]

/-- A bit of F that is no flag in R27's table is kept. -/
theorem getLsbD_flagsAfter_kept {i : Instr} {j : Nat} (s : State) (f : Byte)
    (h : ∀ x, writesFlag config i x → j ≠ x.bit) : (flagsAfter i s f).getLsbD j = f.getLsbD j := by
  cases i with
  | incB | decB =>
    simp [flagsAfter, getLsbD_flagsAfterStep, h .zero (.inl rfl), h .subtract (.inr (.inl rfl)),
      h .halfCarry (.inr (.inr rfl))]
  | rlca =>
    have hx : ∀ x : Flag, j ≠ x.bit := fun x => h x trivial
    simp [flagsAfter, getLsbD_flagsAfterRotate, hx]
  | addHlBc =>
    have hz : ¬ (j = Flag.zero.bit ∧ config.add16ZeroPolicy = .dependent) := fun ⟨hj, hp⟩ =>
      h .zero (.inr (.inr (.inr ⟨rfl, hp⟩))) hj
    rw [flagsAfter, getLsbD_flagsAfterAdd, if_neg hz, if_neg (h .carry (.inr (.inr (.inl rfl)))),
      if_neg (h .halfCarry (.inr (.inl rfl))), if_neg (h .subtract (.inl rfl))]
  | nop | ldBcD16 | ldBcA | incBc | ldBD8 | ldA16Sp | unimplementedOpcode => rfl

/-- A flag of R27's table gets a value that F has no part in. -/
theorem getLsbD_flagsAfter_written {i : Instr} {x : Flag} (s : State) (f g : Byte) (h : writesFlag config i x) :
    (flagsAfter i s f).getLsbD x.bit = (flagsAfter i s g).getLsbD x.bit := by
  cases i with
  | incB | decB =>
    obtain rfl | rfl | rfl := h <;> simp [flagsAfter, getLsbD_flagsAfterStep]
  | rlca => cases x <;> simp [flagsAfter, getLsbD_flagsAfterRotate]
  | addHlBc =>
    obtain rfl | rfl | rfl | ⟨rfl, hp⟩ := h
    · simp [flagsAfter, getLsbD_flagsAfterAdd]
    · simp [flagsAfter, getLsbD_flagsAfterAdd]
    · simp [flagsAfter, getLsbD_flagsAfterAdd]
    · simp [flagsAfter, getLsbD_flagsAfterAdd, hp]
  | nop | ldBcD16 | ldBcA | incBc | ldBD8 | ldA16Sp | unimplementedOpcode => exact h.elim

theorem four_le_bit (x : Flag) : 4 ≤ x.bit := by cases x <;> decide

/-- Settles O28: neither a bit of the low nibble nor a flag outside R27's table is a flag written. -/
theorem flagsOutsideTheWriteTableAreKept : Obligations.FlagsOutsideTheWriteTableAreKept := by
  intro i s t h
  obtain ⟨rfl, -⟩ := exec_eq_effect h
  constructor
  · intro j hj
    rw [effect_f]
    exact getLsbD_flagsAfter_kept s s.f fun x _ => (Nat.lt_of_lt_of_le hj (four_le_bit x)).ne
  · intro x hx
    rw [State.getFlag, effect_f]
    exact getLsbD_flagsAfter_kept s s.f fun y hy hxy => hx (bit_injective hxy ▸ hy)

/-- Settles O30: another flags byte changes F alone, and no flag written. -/
theorem noInstructionReadsAFlag : Obligations.NoInstructionReadsAFlag := by
  intro i s t f h
  obtain ⟨rfl, hexec⟩ := exec_eq_effect h
  refine ⟨effect i { s with f := f }, hexec _, ?_, fun x hx => ?_⟩
  · rw [sameButFlags, effect_withFlags]
  · rw [State.getFlag, State.getFlag, effect_withFlags, effect_f]
    exact getLsbD_flagsAfter_written s f s.f hx

end Sys2Proof.Machine
end

section
/-! Memory: what a read gives after a write of one byte and of two, the memory of any function of the address, and which instructions
and fetches see a store. -/

namespace Sys2Proof.Machine

/-- A byte read after a byte write, at any two addresses (R39). -/
theorem read8_write8 (m : Memory) (addr x : Word) (v : Byte) :
    Memory.read8 (Memory.write8 m addr v) x = if x = addr then v else Memory.read8 m x := by
  simp only [Memory.read8, Memory.write8, lookup_store, BitVec.toNat_inj]

@[simp] theorem read8_write8_same (m : Memory) (addr : Word) (v : Byte) :
    Memory.read8 (Memory.write8 m addr v) addr = v := by
  rw [read8_write8, if_pos rfl]

theorem read8_write8_other {addr x : Word} (m : Memory) (v : Byte) (h : x ≠ addr) :
    Memory.read8 (Memory.write8 m addr v) x = Memory.read8 m x := by
  rw [read8_write8, if_neg h]

/-- Settles O50, from the read after a write. -/
theorem aByteWriteChangesOnlyItsByte : Obligations.AByteWriteChangesOnlyItsByte := fun m addr v =>
  ⟨read8_write8_same m addr v, fun _ h => read8_write8_other m v h⟩

/-- The two addresses of a 16-bit access are never one. -/
theorem addr_ne_next (addr : Word) : addr ≠ addr + 1 := by bv_omega

section
variable (m : Memory) (addr v : Word)

/-- The second write of a 16-bit write leaves the low byte alone. -/
@[simp] theorem read8_write16_low : Memory.read8 (Memory.write16 m addr v) addr = loByte v := by
  rw [Memory.write16, read8_write8_other _ _ (addr_ne_next addr), read8_write8_same]

@[simp] theorem read8_write16_high : Memory.read8 (Memory.write16 m addr v) (addr + 1) = hiByte v := by
  rw [Memory.write16, read8_write8_same]

theorem read8_write16_other {addr x : Word} (hlow : x ≠ addr) (hhigh : x ≠ addr + 1) :
    Memory.read8 (Memory.write16 m addr v) x = Memory.read8 m x := by
  rw [Memory.write16, read8_write8_other _ _ hhigh, read8_write8_other _ _ hlow]

@[simp] theorem read16_write16 : Memory.read16 (Memory.write16 m addr v) addr = v := by
  rw [Memory.read16, read8_write16_low, read8_write16_high, joinBytes_hiByte_loByte]

end

/-- The next address, as arithmetic modulo 2^16 writes it (R43, D4). -/
theorem ofNat_succ_mod (addr : Word) : BitVec.ofNat 16 ((addr.toNat + 1) % 65536) = addr + 1 := by
  apply BitVec.eq_of_toNat_eq
  simp

/-- Settles O51, from the two bytes of a 16-bit access. -/
theorem wordAccessesAreLittleEndianAndWrap : Obligations.WordAccessesAreLittleEndianAndWrap := by
  intro m addr v
  rw [ofNat_succ_mod]
  refine ⟨?_, read16_write16 m addr v, ?_, ?_, fun x => read8_write16_other m v⟩
  · rw [Memory.read16, toNat_joinBytes, Nat.mul_comm, Nat.add_comm]
  · rw [read8_write16_low, toNat_loByte]
  · rw [read8_write16_high, toNat_hiByte]

/-- The memory that holds `g` at the first `n` addresses, written byte by byte into the empty memory. -/
def Memory.ofFunction (g : Word → Byte) : Nat → Memory
  | 0 => []
  | n + 1 => Memory.write8 (Memory.ofFunction g n) (BitVec.ofNat 16 n) (g (BitVec.ofNat 16 n))

theorem wf_ofFunction (g : Word → Byte) (n : Nat) : Memory.wf (Memory.ofFunction g n) = true := by
  induction n with
  | zero => rfl
  | succ n ih => exact wf_write8 _ _ ih

theorem read8_ofFunction (g : Word → Byte) {n : Nat} {addr : Word} (h : addr.toNat < n) :
    Memory.read8 (Memory.ofFunction g n) addr = g addr := by
  induction n with
  | zero => exact absurd h (Nat.not_lt_zero _)
  | succ n ih =>
    rw [Memory.ofFunction, read8_write8]
    split
    · next heq => rw [heq]
    · next hne =>
      have hn : addr.toNat ≠ n := fun hn => hne (by rw [← hn, BitVec.ofNat_toNat, BitVec.setWidth_eq])
      exact ih (by omega)

/-- A canonical memory lists no key from 0x10000 on. -/
theorem lookup_above {m : Memory} {n a : Nat} (h : Memory.wfFrom n m = true) (ha : 0x10000 ≤ a) :
    Memory.lookup m a = 0 := by
  induction m generalizing n with
  | nil => rfl
  | cons cell rest ih =>
    simp only [Memory.wfFrom, Bool.and_eq_true, decide_eq_true_eq] at h
    obtain ⟨⟨⟨-, hlt⟩, -⟩, hrest⟩ := h
    rw [Memory.lookup, if_neg (by omega), ih hrest]

/-- Two canonical memories that read alike at every address are the same list: past the last address neither lists anything. -/
theorem read8_ext {m m' : Memory} (hm : Memory.wf m = true) (hm' : Memory.wf m' = true)
    (h : ∀ addr, Memory.read8 m addr = Memory.read8 m' addr) : m = m' := by
  refine lookup_ext hm hm' fun a => ?_
  rcases Nat.lt_or_ge a 0x10000 with hlt | hge
  · have haddr : (BitVec.ofNat 16 a).toNat = a := Nat.mod_eq_of_lt hlt
    simpa only [Memory.read8, haddr] using h (BitVec.ofNat 16 a)
  · rw [lookup_above hm hge, lookup_above hm' hge]

/-- Settles O49: the function is written out at all 2^16 addresses, and what a canonical memory reads as determines it. -/
theorem memoryIsATotalFunctionOfTheAddress : Obligations.MemoryIsATotalFunctionOfTheAddress :=
  ⟨fun g => ⟨Memory.ofFunction g (2 ^ 16), wf_ofFunction g _, fun addr => read8_ofFunction g addr.isLt⟩,
    fun _ _ => read8_ext⟩

/-- Only the two stores write memory (R44). -/
theorem effect_mem {i : Instr} (s : State) (hbc : i ≠ .ldBcA) (ha16 : i ≠ .ldA16Sp) : (effect i s).mem = s.mem := by
  cases i with
  | ldBcA => exact absurd rfl hbc
  | ldA16Sp => exact absurd rfl ha16
  | ldBcD16 | incBc | addHlBc => exact setReg16_mem s _ _
  | incB | decB | ldBD8 | rlca => exact setReg8_mem s _ _
  | nop | unimplementedOpcode => rfl

/-- Settles O29, from what an instruction's effect leaves of memory. -/
theorem instructionsThatStoreNothingKeepMemory : Obligations.InstructionsThatStoreNothingKeepMemory := by
  intro i s t hbc ha16 h addr
  obtain ⟨rfl, -⟩ := exec_eq_effect h
  rw [effect_mem s hbc ha16]

/-- The fetch after LD (BC),A, where BC is the next instruction's address (R53). -/
theorem fetchOpcode_effect_ldBcA {s : State} (h : joinBytes s.b s.c = s.pc + 1) :
    fetchOpcode (effect .ldBcA s) = s.a := by
  simp only [fetchOpcode, effect, h, read8_write8_same]

/-- Settles O33: the next fetch reads the byte stored, and the step runs what it decodes to. -/
theorem aStoreIsSeenByTheNextFetch : Obligations.AStoreIsSeenByTheNextFetch := by
  intro s h
  have hfetch := fetchOpcode_effect_ldBcA h
  exact ⟨effect .ldBcA s, exec_effect rfl s, hfetch, by rw [step, hfetch]⟩

end Sys2Proof.Machine
end

section
/-! The ten rows of the opcode table as a list, and what their opcodes, entries and spellings say of the decoder and of the table-driven
step. -/

namespace Sys2Proof.Machine

/-- The instructions of the ten rows, at the place of their opcodes (R62). -/
def tableInstrs : List Instr :=
  [.nop, .ldBcD16, .ldBcA, .incBc, .incB, .decB, .ldBD8, .rlca, .ldA16Sp, .addHlBc]

/-- Row `n` has the opcode `n`. -/
theorem opcode_tableInstrs (n : Fin 10) : tableInstrs[n].opcode = BitVec.ofNat 8 n := by
  revert n
  decide

theorem opcode_lt_of_mem {i : Instr} (h : i ∈ tableInstrs) : i.opcode.toNat < 0x0A := by
  revert i
  decide

theorem wf_of_mem {i : Instr} (h : i ∈ tableInstrs) : i.wf = true := by
  revert i
  decide

theorem exists_mem_of_opcode_lt {op : Byte} (h : op.toNat < 0x0A) : ∃ i ∈ tableInstrs, i.opcode = op := by
  refine ⟨tableInstrs[op.toNat], List.getElem_mem h, ?_⟩
  calc tableInstrs[op.toNat].opcode
    _ = BitVec.ofNat 8 op.toNat := opcode_tableInstrs ⟨op.toNat, h⟩
    _ = op := by rw [BitVec.ofNat_toNat, BitVec.setWidth_eq]

/-- An instruction is one of the ten, or the default row. -/
theorem mem_tableInstrs_or_default (i : Instr) : i ∈ tableInstrs ∨ i = .unimplementedOpcode i.opcode := by
  cases i with
  | unimplementedOpcode op => exact .inr rfl
  | _ => exact .inl (by decide)

/-- The opcode of a well-formed instruction decodes to it (R55, R62). -/
theorem decodeOpcode_opcode {i : Instr} (h : i.wf = true) : decodeOpcode i.opcode = i := by
  cases i with
  | unimplementedOpcode op => exact Laws.DecodesBack.unimplementedOpcode op h
  | _ => rfl

/-- An opcode from 0x0A on decodes to the default row (R66). -/
theorem decodeOpcode_of_ge {op : Byte} (h : 0x0A ≤ op.toNat) : decodeOpcode op = .unimplementedOpcode op :=
  decodeOpcode_opcode (i := .unimplementedOpcode op) (decide_eq_true h)

/-- An opcode below 0x0A decodes to its row. -/
theorem decodeOpcode_of_lt {op : Byte} (h : op.toNat < 0x0A) :
    decodeOpcode op ∈ tableInstrs ∧ (decodeOpcode op).opcode = op := by
  obtain ⟨i, hi, rfl⟩ := exists_mem_of_opcode_lt h
  rw [decodeOpcode_opcode (wf_of_mem hi)]
  exact ⟨hi, rfl⟩

theorem wf_decodeOpcode (op : Byte) : (decodeOpcode op).wf = true := by
  rcases Nat.lt_or_ge op.toNat 0x0A with hlt | hge
  · exact wf_of_mem (decodeOpcode_of_lt hlt).1
  · rw [decodeOpcode_of_ge hge]
    exact decide_eq_true hge

/-- The opcode byte is kept by the decoder, in the default row as well. -/
@[simp] theorem opcode_decodeOpcode (op : Byte) : (decodeOpcode op).opcode = op := by
  rcases Nat.lt_or_ge op.toNat 0x0A with hlt | hge
  · exact (decodeOpcode_of_lt hlt).2
  · rw [decodeOpcode_of_ge hge]
    rfl

/-- The ten rows have ten spellings (R71). -/
theorem nodup_map_spelling : (tableInstrs.map Instr.spelling).Nodup := by decide

theorem spelling_ne_default {i : Instr} (h : i ∈ tableInstrs) (op : Byte) :
    i.spelling ≠ Instr.spelling (.unimplementedOpcode op) := by
  have hne : ∀ i ∈ tableInstrs, i.spelling ≠ "(UnimplementedOpcode)" := by decide
  exact hne i h

/-- Settles O6: the ten spellings differ from one another and from the default row's. -/
theorem eachSpellingNamesOneInstruction : Obligations.EachSpellingNamesOneInstruction := by
  intro i j h
  rcases mem_tableInstrs_or_default i with hi | hi <;> rcases mem_tableInstrs_or_default j with hj | hj
  · exact .inl (List.inj_on_of_nodup_map nodup_map_spelling hi hj h)
  · rw [hj] at h
    exact absurd h (spelling_ne_default hi _)
  · rw [hi] at h
    exact absurd h.symm (spelling_ne_default hj _)
  · exact .inr ⟨hi, hj⟩

section
variable {cfg : Config} {i : Instr} {e : Entry}

/-- The decode table lists the entries of the ten rows. -/
theorem mem_decodeTable_iff : e ∈ decodeTable cfg ↔ ∃ i ∈ tableInstrs, instrEntry cfg i = some e := by
  have htable : decodeTable cfg = tableInstrs.filterMap (instrEntry cfg) := rfl
  rw [htable, List.mem_filterMap]

theorem exists_entry (h : i ∈ tableInstrs) : ∃ e, instrEntry cfg i = some e := by
  cases i with
  | unimplementedOpcode op => exact absurd h (by simp [tableInstrs])
  | _ => exact ⟨_, rfl⟩

theorem opcode_of_entry (h : instrEntry cfg i = some e) : e.opcode = i.opcode := by
  cases i <;> cases h <;> rfl

/-- A row's opcode finds its entry (R62, R69). -/
theorem decodeWith_of_entry (h : instrEntry cfg i = some e) (pc : Word) :
    decodeWith (decodeTable cfg) i.opcode pc = some (e.descriptor pc) := by
  cases i <;> cases h <;> rfl

/-- An opcode from 0x0A on finds no entry (R66). -/
theorem decodeWith_of_ge {op : Byte} (h : 0x0A ≤ op.toNat) (pc : Word) : decodeWith (decodeTable cfg) op pc = none := by
  simp only [decodeWith, Option.map_eq_none_iff, List.find?_eq_none, beq_iff_eq]
  rintro e he rfl
  obtain ⟨i, hi, hentry⟩ := mem_decodeTable_iff.mp he
  rw [opcode_of_entry hentry] at h
  exact absurd (opcode_lt_of_mem hi) (Nat.not_lt.mpr h)

/-- A step on a row's opcode ends in the row's effect, with the entry's cost. -/
theorem coreStep_of_entry (h : instrEntry config i = some e) (s : State) :
    coreStep i.opcode s = .ok (effect i s) e.cycles := by
  rw [← runEntry_effect h, coreStep, stepWith, decodeWith_of_entry h, runEntry, opcode_of_entry h]

end

/-- A step on an opcode from 0x0A on fails (R66, R119). -/
theorem coreStep_of_ge {op : Byte} (h : 0x0A ≤ op.toNat) (s : State) :
    coreStep op s = .fail (.unimplementedOpcode op) := by
  rw [coreStep, stepWith, decodeWith_of_ge h, raiseFailure_eq]

/-- Everything a step on an opcode can do, in every state: it runs the row of the opcode, or there is none and it fails. -/
theorem coreStep_cases (op : Byte) :
    (op.toNat < 0x0A ∧ ∃ e, instrEntry config (decodeOpcode op) = some e ∧
      ∀ s, coreStep op s = .ok (effect (decodeOpcode op) s) e.cycles) ∨
    (0x0A ≤ op.toNat ∧ decodeOpcode op = .unimplementedOpcode op ∧
      ∀ s, coreStep op s = .fail (.unimplementedOpcode op)) := by
  rcases Nat.lt_or_ge op.toNat 0x0A with hlt | hge
  · obtain ⟨hmem, hop⟩ := decodeOpcode_of_lt hlt
    obtain ⟨e, he⟩ := exists_entry (cfg := config) hmem
    refine .inl ⟨hlt, e, he, fun s => ?_⟩
    rw [← coreStep_of_entry he s, hop]
  · exact .inr ⟨hge, decodeOpcode_of_ge hge, coreStep_of_ge hge⟩

/-- Settles O8: inside the table both answer the row's effect, outside it the same fault. -/
theorem meaningsAgreeWithTheTableDrivenStep : Obligations.MeaningsAgreeWithTheTableDrivenStep := by
  intro op s
  obtain ⟨-, e, he, hstep⟩ | ⟨-, hdecode, hstep⟩ := coreStep_cases op
  · rw [hstep, exec_effect he, toOutcome_ok]
  · rw [hdecode, hstep]
    rfl

/-- Settles O21: a step inside the table is no failure, and one outside fails with its opcode. -/
theorem opcodesOutsideTheTableFailAndChangeNothing : Obligations.OpcodesOutsideTheTableFailAndChangeNothing := by
  intro op s failure
  obtain ⟨hlt, e, -, hstep⟩ | ⟨hge, hdecode, hstep⟩ := coreStep_cases op
  · have houtside : ¬ 0x0A ≤ op.toNat := Nat.not_le.mpr hlt
    rw [hstep]
    exact ⟨⟨nofun, fun h => absurd h.1 houtside⟩, fun h => absurd h houtside⟩
  · rw [hstep, StepResult.fail.injEq]
    exact ⟨⟨fun h => ⟨hge, h.symm⟩, fun h => h.2.symm⟩, fun _ => ⟨hdecode, rfl, rfl⟩⟩

/-- Settles O25: the checks look at no address, and the Zero policy of ADD HL,BC is one that ADD computes under either value. -/
theorem everyTableEntryIsWellFormed : Obligations.EveryTableEntryIsWellFormed := by
  intro cfg e he
  obtain ⟨i, -, hentry⟩ := mem_decodeTable_iff.mp he
  cases i <;> cases hentry
  case addHlBc =>
    obtain ⟨policy, costs⟩ := cfg
    cases policy <;> exact ⟨fun _ => rfl, rfl⟩
  all_goals exact ⟨fun _ => rfl, rfl⟩

end Sys2Proof.Machine
end

section
/-! The decoder of bytes and the encoder undo one another, and what the machine reads of the bytes at PC. -/

namespace Sys2Proof.Machine

section
variable {op : Byte}

/-! The decoder on each format (R54). -/

theorem decode_op (h : (decodeOpcode op).format = .op) (rest : List Byte) :
    decode (op :: rest) = .ok (⟨decodeOpcode op, .none⟩, rest) := by
  simp only [decode, h]

theorem decode_opD8 (h : (decodeOpcode op).format = .opD8) (d : Byte) (rest : List Byte) :
    decode (op :: d :: rest) = .ok (⟨decodeOpcode op, .d8 d⟩, rest) := by
  simp only [decode, h]

theorem decode_opD16 (h : (decodeOpcode op).format = .opD16) (lo hi : Byte) (rest : List Byte) :
    decode (op :: lo :: hi :: rest) = .ok (⟨decodeOpcode op, .d16 (joinBytes hi lo)⟩, rest) := by
  simp only [decode, h]

/-- An immediate that fits the format is read back from its bytes (R58). -/
theorem decode_cons_bytes {imm : Immediate} (h : imm.fits (decodeOpcode op).format = true) (rest : List Byte) :
    decode (op :: (imm.bytes ++ rest)) = .ok (⟨decodeOpcode op, imm⟩, rest) := by
  cases hformat : (decodeOpcode op).format <;> rw [hformat] at h <;> cases imm <;> cases h
  case op.none => exact decode_op hformat rest
  case opD8.d8 v => exact decode_opD8 hformat v rest
  case opD16.d16 v =>
    have hread := decode_opD16 hformat (loByte v) (hiByte v) rest
    rwa [joinBytes_hiByte_loByte] at hread

end

/-- Everything a byte string that decodes can be: an opcode, the bytes of an immediate that fits its format, and the bytes left. -/
theorem decode_ok {bytes rest : List Byte} {a : AsmInstr} (h : decode bytes = .ok (a, rest)) :
    ∃ op, a.instr = decodeOpcode op ∧ a.imm.fits a.instr.format = true ∧ bytes = op :: (a.imm.bytes ++ rest) := by
  cases bytes with
  | nil => cases h
  | cons op bytes =>
    refine ⟨op, ?_⟩
    simp only [decode] at h
    split at h
    · next rest' hformat =>
      cases h
      exact ⟨rfl, by rw [hformat]; rfl, rfl⟩
    · next d rest' hformat =>
      cases h
      exact ⟨rfl, by rw [hformat]; rfl, rfl⟩
    · next lo hi rest' hformat =>
      cases h
      exact ⟨rfl, by rw [hformat]; rfl, by simp [Immediate.bytes]⟩
    · cases h

/-- Settles O1: the opcode decodes to its instruction, and the immediate is read back from its bytes. -/
theorem decodeOfEncodeIsTheInstruction : Obligations.DecodeOfEncodeIsTheInstruction := by
  rintro ⟨i, imm⟩ rest hwf
  obtain ⟨hi, hfits⟩ := (Bool.and_eq_true _ _).mp hwf
  have hdecode := decodeOpcode_opcode hi
  have hread := decode_cons_bytes (op := i.opcode) (imm := imm) (by rwa [hdecode]) rest
  rwa [hdecode] at hread

/-- Settles O2, from what a byte string that decodes can be. -/
theorem encodeOfDecodeIsTheBytes : Obligations.EncodeOfDecodeIsTheBytes := by
  rintro bytes ⟨i, imm⟩ rest h
  obtain ⟨op, rfl, hfits, rfl⟩ := decode_ok h
  refine ⟨?_, ?_⟩
  · rw [AsmInstr.wf, wf_decodeOpcode, hfits, Bool.and_self]
  · rw [encode, opcode_decodeOpcode, List.cons_append]

/-- Settles O3: each word's opcode selects its row's format, and that format's equation reads the immediate. -/
theorem tableWordsDecodeToTheirInstructions : Obligations.TableWordsDecodeToTheirInstructions :=
  ⟨decode_op rfl [], decode_opD16 rfl 0x34 0x12 [], decode_op rfl [], decode_op rfl [], decode_op rfl [], decode_op rfl [],
    decode_opD8 rfl 0x7F [], decode_op rfl [], decode_opD16 rfl 0x00 0xC0 [], decode_op rfl [], decode_op rfl []⟩

/-- What decodes at PC is its own encoding, so the immediate's bytes stand at PC + 1 and PC + 2. -/
theorem immediate_bytes_of_decode {s : State} {i : Instr} {imm : Immediate} {rest : List Byte}
    (h : decode (fetchBytes s) = .ok (⟨i, imm⟩, rest)) :
    imm.bytes ++ rest = [Memory.read8 s.mem (s.pc + 1), Memory.read8 s.mem (s.pc + 2)] := by
  obtain ⟨-, hbytes⟩ := encodeOfDecodeIsTheBytes _ _ _ h
  exact (List.cons.inj hbytes).2

/-- The address after next, as a second increment reaches it. -/
theorem add_one_add_one (addr : Word) : addr + 1 + 1 = addr + 2 := BitVec.add_assoc addr 1 1

/-- Settles O7, byte by byte from where the immediate's bytes stand. -/
theorem resolverReadsTheDecodedImmediate : Obligations.ResolverReadsTheDecodedImmediate := by
  intro s i rest
  refine ⟨fun v h => ?_, fun v h => ?_⟩
  · obtain ⟨hv, -⟩ := List.cons.inj (immediate_bytes_of_decode h)
    rw [get8, hv]
  · obtain ⟨hlo, htail⟩ := List.cons.inj (immediate_bytes_of_decode h)
    obtain ⟨hhi, -⟩ := List.cons.inj htail
    rw [get16, Memory.read16, add_one_add_one, ← hlo, ← hhi, joinBytes_hiByte_loByte]

/-- The step runs the instruction that the bytes at PC decode to (R75, R140). -/
theorem step_of_decode {s : State} {a : AsmInstr} {rest : List Byte} (h : decode (fetchBytes s) = .ok (a, rest)) :
    step s = exec a.instr s := by
  obtain ⟨op, hinstr, -, hbytes⟩ := decode_ok h
  have hop : fetchOpcode s = op := (List.cons.inj hbytes).1
  rw [step, hop, hinstr]

/-- The host's load of a table word puts its three bytes where the next step fetches, wherever PC stands (R54, D4). -/
theorem fetchBytes_withFetchWord (s : State) (nbits w : Nat) :
    fetchBytes (s.withFetchWord nbits w) = tableWordBytes nbits w := by
  have h₀₁ : s.pc ≠ s.pc + 1 := addr_ne_next s.pc
  have h₀₂ : s.pc ≠ s.pc + 2 := by bv_omega
  have h₁₂ : s.pc + 1 ≠ s.pc + 2 := by bv_omega
  simp only [fetchBytes, State.withFetchWord, tableWordBytes, loadBytes, hostWrite, add_one_add_one, read8_write8, h₀₁, h₀₂,
    h₁₂, if_true, if_false]

/-- Settles O5: the bytes at PC are the word's, and the step runs what they decode to. -/
theorem aTableWordAtPcIsWhatTheNextStepRuns : Obligations.ATableWordAtPcIsWhatTheNextStepRuns := by
  intro s nbits w i h
  unfold decodeTableWord at h
  split at h
  · next a rest hdecode =>
    cases h
    rw [← fetchBytes_withFetchWord s] at hdecode
    exact step_of_decode hdecode
  · cases h

end Sys2Proof.Machine
end

section
/-! The opcode's own byte: an instruction's effect reads memory at the two addresses after it, if at all. -/

namespace Sys2Proof.Machine

/-- A byte that reads alike in two memories reads alike after the same write. -/
theorem read8_write8_congr {m m' : Memory} {x : Word} (h : Memory.read8 m' x = Memory.read8 m x) (addr : Word) (v : Byte) :
    Memory.read8 (Memory.write8 m' addr v) x = Memory.read8 (Memory.write8 m addr v) x := by
  rw [read8_write8, read8_write8, h]

section
variable {s : State} {m' : Memory} (h : ∀ addr, addr ≠ s.pc → Memory.read8 m' addr = Memory.read8 s.mem addr)
include h

theorem read8_next_congr : Memory.read8 m' (s.pc + 1) = Memory.read8 s.mem (s.pc + 1) :=
  h _ (addr_ne_next s.pc).symm

theorem read16_next_congr : Memory.read16 m' (s.pc + 1) = Memory.read16 s.mem (s.pc + 1) := by
  have hsecond : s.pc + 1 + 1 ≠ s.pc := by bv_omega
  rw [Memory.read16, Memory.read16, h _ hsecond, read8_next_congr h]

/-- Another byte at PC changes no field of the next state but memory (R44, R56). -/
theorem effect_withMem (i : Instr) : effect i { s with mem := m' } =
    { effect i s with mem := (effect i { s with mem := m' }).mem } := by
  cases i with
  | ldBD8 => simp only [effect, State.setReg8, read8_next_congr h]
  | ldBcD16 => simp only [effect, State.setReg16, read16_next_congr h]
  | _ => rfl

/-- Another byte at PC changes no other byte of the next memory. -/
theorem read8_effect_withMem (i : Instr) {addr : Word} (haddr : addr ≠ s.pc) :
    Memory.read8 (effect i { s with mem := m' }).mem addr = Memory.read8 (effect i s).mem addr := by
  have hkept := h addr haddr
  by_cases hbc : i = .ldBcA
  · subst hbc
    exact read8_write8_congr hkept _ _
  by_cases ha16 : i = .ldA16Sp
  · subst ha16
    simp only [effect, read16_next_congr h]
    exact read8_write8_congr (read8_write8_congr hkept _ _) _ _
  rw [effect_mem _ hbc ha16, effect_mem _ hbc ha16, hkept]

end

/-- Settles O32: the step ends in an effect, and no effect reads the byte at PC. -/
theorem theCoreNeverReadsTheOpcodeByte : Obligations.TheCoreNeverReadsTheOpcodeByte := by
  intro op s t n v hstep
  obtain ⟨-, e, -, heffect⟩ | ⟨-, -, hfail⟩ := coreStep_cases op
  · rw [heffect] at hstep
    cases hstep
    have hagree : ∀ addr, addr ≠ s.pc → Memory.read8 (Memory.write8 s.mem s.pc v) addr = Memory.read8 s.mem addr :=
      fun _ haddr => read8_write8_other s.mem v haddr
    exact ⟨_, heffect _, effect_withMem hagree _, fun _ haddr => read8_effect_withMem hagree _ haddr⟩
  · rw [hfail] at hstep
    cases hstep

end Sys2Proof.Machine
end

section
/-! The operand resolver: each operation is defined exactly on its valid descriptors, and what a get reads after a set on the same
descriptor. -/

namespace Sys2Proof.Machine

variable (s : State) (d : Operand)

/-- An Indirect is asked for an address at width 16, whatever the width of the access, so the induction is on the 16-bit get alone
(R82, R84). -/
theorem isSome_get16 : (get16 s d).isSome = d.valid16 := by
  induction d with
  | indirect inner ih => rw [get16, Option.isSome_map, ih, Operand.valid16]
  | reg8 | reg16 | imm8 | imm16 => rfl

theorem isSome_set16 (v : Word) : (set16 s d v).isSome = d.valid16 := by
  cases d with
  | indirect inner => rw [set16, Option.isSome_map, isSome_get16, Operand.valid16]
  | reg8 | reg16 | imm8 | imm16 => rfl

theorem isSome_get8 : (get8 s d).isSome = d.valid8 := by
  cases d with
  | indirect inner => rw [get8, Option.isSome_map, isSome_get16, Operand.valid8]
  | reg8 | reg16 | imm8 | imm16 => rfl

theorem isSome_set8 (v : Byte) : (set8 s d v).isSome = d.valid8 := by
  cases d with
  | indirect inner => rw [set8, Option.isSome_map, isSome_get16, Operand.valid8]
  | reg8 | reg16 | imm8 | imm16 => rfl

/-- Settles O46: the gets and sets of an Indirect are defined where the 16-bit get of its inner descriptor is. -/
theorem resolverIsDefinedExactlyOnValidDescriptors : Obligations.ResolverIsDefinedExactlyOnValidDescriptors := fun s d =>
  ⟨⟨isSome_get8 s d, isSome_set8 s d⟩, ⟨isSome_get16 s d, isSome_set16 s d⟩⟩

section
variable {d}

theorem exists_get8 (h : d.valid8 = true) : ∃ v, get8 s d = some v :=
  Option.isSome_iff_exists.mp ((isSome_get8 s d).trans h)

theorem exists_set8 (h : d.valid8 = true) (v : Byte) : ∃ s', set8 s d v = some s' :=
  Option.isSome_iff_exists.mp ((isSome_set8 s d v).trans h)

theorem exists_get16 (h : d.valid16 = true) : ∃ v, get16 s d = some v :=
  Option.isSome_iff_exists.mp ((isSome_get16 s d).trans h)

theorem exists_set16 (h : d.valid16 = true) (v : Word) : ∃ s', set16 s d v = some s' :=
  Option.isSome_iff_exists.mp ((isSome_set16 s d v).trans h)

theorem valid8_of_set8 {s s' : State} {v : Byte} (h : set8 s d v = some s') : d.valid8 = true := by
  rw [← isSome_set8 s d v, h, Option.isSome_some]

theorem valid16_of_set16 {s s' : State} {v : Word} (h : set16 s d v = some s') : d.valid16 = true := by
  rw [← isSome_set16 s d v, h, Option.isSome_some]

/-- A descriptor with a store address is read there, too (R80, R85). -/
theorem get8_of_storeAddress {s : State} {addr : Word} (hd : d.valid8 = true) (h : storeAddress s d = some addr) :
    get8 s d = some (Memory.read8 s.mem addr) := by
  cases d with
  | imm8 => cases h; rfl
  | indirect inner => rw [get8, show get16 s inner = some addr from h, Option.map_some]
  | reg8 | reg16 => cases h
  | imm16 => cases hd

theorem get16_of_storeAddress {s : State} {addr : Word} (hd : d.valid16 = true) (h : storeAddress s d = some addr) :
    get16 s d = some (Memory.read16 s.mem addr) := by
  cases d with
  | imm16 => cases h; rfl
  | indirect inner => rw [get16, show get16 s inner = some addr from h, Option.map_some]
  | reg8 | reg16 => cases h
  | imm8 => cases hd

/-- A 16-bit name read after it is written: a pair is a view of two registers, and SP a field (R18, R19). -/
theorem getReg16_setReg16_same (p : Reg16) (w : Word) : (s.setReg16 p w).getReg16 p = w := by
  cases p with
  | bc => exact getReg16_setReg16 s w isPairOf_bc
  | de => exact getReg16_setReg16 s w isPairOf_de
  | hl => exact getReg16_setReg16 s w isPairOf_hl
  | sp => rfl

/-- The round trip at width 8, where the set leaves the descriptor's address as it was (R86). -/
theorem get8_of_set8 {s s' : State} {v : Byte} (h : set8 s d v = some s') (haddr : storeAddress s' d = storeAddress s d) :
    get8 s' d = some v := by
  obtain ⟨r, rfl, rfl⟩ | ⟨addr, hstore, rfl⟩ := set8_cases h
  · rw [get8, getReg8_setReg8_same]
  · rw [get8_of_storeAddress (valid8_of_set8 h) (haddr.trans hstore), read8_write8_same]

/-- The round trip at width 16, where the set leaves the descriptor's address as it was (R86). -/
theorem get16_of_set16 {s s' : State} {v : Word} (h : set16 s d v = some s')
    (haddr : storeAddress s' d = storeAddress s d) : get16 s' d = some v := by
  obtain ⟨p, rfl, rfl⟩ | ⟨addr, hstore, rfl⟩ := set16_cases h
  · rw [get16, getReg16_setReg16_same]
  · rw [get16_of_storeAddress (valid16_of_set16 h) (haddr.trans hstore), read16_write16]

end

/-- What stands at a register or an immediate has an address that no state decides. -/
theorem storeAddress_of_not_indirect {d : Operand} (h : ∀ n, d ≠ .indirect n) (s s' : State) :
    storeAddress s' d = storeAddress s d := by
  cases d with
  | indirect inner => exact absurd rfl (h inner)
  | reg8 | reg16 | imm8 | imm16 => rfl

theorem getReg16_withMem (p : Reg16) (m : Memory) : ({ s with mem := m } : State).getReg16 p = s.getReg16 p := by
  cases p <;> rfl

/-- A store changes memory alone, so an Indirect over a register resolves as before. -/
theorem storeAddress_indirect_reg16_withMem (p : Reg16) (m : Memory) :
    storeAddress { s with mem := m } (.indirect (.reg16 p)) = storeAddress s (.indirect (.reg16 p)) :=
  congrArg some (getReg16_withMem s p m)

/-- A set through an Indirect, of either width, changes memory alone. -/
theorem set_indirect_eq_withMem {s s' : State} {inner : Operand}
    (h : (∃ v, set8 s (.indirect inner) v = some s') ∨ (∃ v, set16 s (.indirect inner) v = some s')) :
    s' = { s with mem := s'.mem } := by
  obtain ⟨v, hset⟩ | ⟨v, hset⟩ := h
  · obtain ⟨_, hreg, -⟩ | ⟨addr, -, rfl⟩ := set8_cases hset
    · cases hreg
    · rfl
  · obtain ⟨_, hreg, -⟩ | ⟨addr, -, rfl⟩ := set16_cases hset
    · cases hreg
    · rfl

/-- A 16-bit store over its own address word: the word at 0 points at 0, and the store makes it 0x0102,
where the get then reads. -/
theorem set16_moves_own_address : ∃ s', set16 State.reset (.indirect (.imm16 0)) 0x0102 = some s' ∧
    get16 s' (.indirect (.imm16 0)) ≠ some 0x0102 :=
  ⟨{ State.reset with mem := [(0, 0x02), (1, 0x01)] }, by decide, by decide⟩

/-- Settles O47, from the round trip at each width and the store over its own address word. -/
theorem setThenGetReturnsTheValueWritten : Obligations.SetThenGetReturnsTheValueWritten := by
  refine ⟨fun s s' d v => get8_of_set8, fun s s' d v => get16_of_set16, ?_, ?_⟩
  · rintro s s' d (hdirect | ⟨p, rfl⟩) hset
    · exact storeAddress_of_not_indirect hdirect s s'
    · rw [set_indirect_eq_withMem hset]
      exact storeAddress_indirect_reg16_withMem s p s'.mem
  · obtain ⟨s', hmoves⟩ := set16_moves_own_address
    exact ⟨State.reset, s', 0, 0x0102, hmoves⟩

section
variable {s} {inner : Operand} {addr : Word} (h : get16 s inner = some addr)
include h

theorem set8_indirect (v : Byte) :
    set8 s (.indirect inner) v = some { s with mem := Memory.write8 s.mem addr v } := by
  rw [set8, h, Option.map_some]

theorem set16_indirect (v : Word) :
    set16 s (.indirect inner) v = some { s with mem := Memory.write16 s.mem addr v } := by
  rw [set16, h, Option.map_some]

end

/-- Settles O48: the set is one memory write at the inner descriptor's address. -/
theorem indirectWritesChangeOnlyTheAddressedBytes : Obligations.IndirectWritesChangeOnlyTheAddressedBytes := by
  intro s inner addr h
  refine ⟨fun v => ⟨_, set8_indirect h v, rfl, ?_, ?_⟩, fun v => ⟨_, set16_indirect h v, rfl, ?_, ?_, ?_⟩⟩
  · exact read8_write8_same s.mem addr v
  · exact fun x => read8_write8_other s.mem v
  · rw [read8_write16_low, toNat_loByte]
  · rw [read8_write16_high, toNat_hiByte]
  · exact fun x => read8_write16_other s.mem v

end Sys2Proof.Machine
end

section
/-! The flag rule engine: the predicates over the integers, and what `modify_flags` makes of each flag. -/

namespace Sys2Proof.Machine

/-- Settles O38: the carries compare the operands as they are, and each mask is a remainder. -/
theorem flagPredicatesCompareInTheIntegers : Obligations.FlagPredicatesCompareInTheIntegers := by
  refine ⟨fun a b => ⟨rfl, ?_, rfl, ?_⟩, fun a b => ⟨rfl, ?_⟩⟩
  · rw [addHalfCarry8, toNat_and_lowNibble, toNat_and_lowNibble]
    rfl
  · rw [subHalfCarry8, toNat_and_lowNibble, toNat_and_lowNibble]
    rfl
  · rw [addHalfCarry16, toNat_and_low12, toNat_and_low12]
    rfl

/-- What a policy makes of a flag: it is kept, forced, or the operation's result (R94). -/
structure FollowsPolicy (policy : FlagPolicy) (result : Option Bool) (old new : Bool) : Prop where
  unmodified : policy = .unmodified → new = old
  set : policy = .set → new = true
  unset : policy = .unset → new = false
  dependent : policy = .dependent → result = some new

section
variable {f f' : Byte} {p : FlagPolicies} {fr : FlagResult}

theorem modifyFlag_followsPolicy {x : Flag} {policy : FlagPolicy} {result : Option Bool}
    (h : modifyFlag f x policy result = some f') :
    FollowsPolicy policy result (f.getLsbD x.bit) (f'.getLsbD x.bit) := by
  obtain ⟨rfl, rfl⟩ | ⟨hmodified, v, rfl, hset, hunset, hdependent⟩ := modifyFlag_cases h
  · exact ⟨fun _ => rfl, nofun, nofun, nofun⟩
  · rw [getLsbD_setFlagBit_same]
    exact ⟨fun hkept => absurd hkept hmodified, hset, hunset, hdependent⟩

/-- The update of one flag leaves every other flag alone. -/
theorem modifyFlag_otherFlag {x y : Flag} {policy : FlagPolicy} {result : Option Bool}
    (h : modifyFlag f x policy result = some f') (hne : y ≠ x) : f'.getLsbD y.bit = f.getLsbD y.bit :=
  modifyFlag_other h fun hbit => hne (bit_injective hbit)

/-- Each flag follows its own policy: the updates of the three others leave it alone. -/
theorem modifyFlags_followsPolicy (h : modifyFlags f p fr = some f') (x : Flag) :
    FollowsPolicy (p.get x) (fr.get x) (f.getLsbD x.bit) (f'.getLsbD x.bit) := by
  obtain ⟨f₁, f₂, f₃, hz, hn, hh, hc⟩ := modifyFlags_split h
  cases x with
  | zero =>
    rw [modifyFlag_otherFlag hc (by decide), modifyFlag_otherFlag hh (by decide), modifyFlag_otherFlag hn (by decide)]
    exact modifyFlag_followsPolicy hz
  | subtract =>
    rw [modifyFlag_otherFlag hc (by decide), modifyFlag_otherFlag hh (by decide), ← modifyFlag_otherFlag hz (by decide)]
    exact modifyFlag_followsPolicy hn
  | halfCarry =>
    rw [modifyFlag_otherFlag hc (by decide), ← modifyFlag_otherFlag hz (by decide), ← modifyFlag_otherFlag hn (by decide)]
    exact modifyFlag_followsPolicy hh
  | carry =>
    rw [← modifyFlag_otherFlag hz (by decide), ← modifyFlag_otherFlag hn (by decide), ← modifyFlag_otherFlag hh (by decide)]
    exact modifyFlag_followsPolicy hc

/-- A bit below the flags is no flag's bit, so each of the four updates keeps it (R94). -/
theorem modifyFlags_lowBit (h : modifyFlags f p fr = some f') {j : Nat} (hj : j < 4) : f'.getLsbD j = f.getLsbD j := by
  obtain ⟨f₁, f₂, f₃, hz, hn, hh, hc⟩ := modifyFlags_split h
  have hne : ∀ x : Flag, j ≠ x.bit := fun x => (Nat.lt_of_lt_of_le hj (four_le_bit x)).ne
  rw [modifyFlag_other hc (hne _), modifyFlag_other hh (hne _), modifyFlag_other hn (hne _), modifyFlag_other hz (hne _)]

theorem exists_modifyFlag (f : Byte) (x : Flag) {policy : FlagPolicy} {result : Option Bool}
    (h : policy = .dependent → result ≠ none) : ∃ f', modifyFlag f x policy result = some f' := by
  cases policy with
  | dependent =>
    obtain ⟨v, rfl⟩ := Option.ne_none_iff_exists'.mp (h rfl)
    exact ⟨setFlagBit f x v, rfl⟩
  | unmodified | set | unset => exact ⟨_, rfl⟩

/-- `modify_flags` completes where every Dependent flag has a result (R95). -/
theorem exists_modifyFlags (f : Byte) (h : ∀ x, p.get x = .dependent → fr.get x ≠ none) :
    ∃ f', modifyFlags f p fr = some f' := by
  obtain ⟨f₁, hz⟩ := exists_modifyFlag f .zero (h .zero)
  obtain ⟨f₂, hn⟩ := exists_modifyFlag f₁ .subtract (h .subtract)
  obtain ⟨f₃, hh⟩ := exists_modifyFlag f₂ .halfCarry (h .halfCarry)
  obtain ⟨f₄, hc⟩ := exists_modifyFlag f₃ .carry (h .carry)
  simp only [FlagPolicies.get, FlagResult.get] at hz hn hh hc
  refine ⟨f₄, ?_⟩
  simp only [modifyFlags, hz, hn, hh, hc, Option.bind_eq_bind, Option.bind_some]

/-- `modify_flags` fails exactly where some Dependent flag has no result (R95). -/
theorem modifyFlags_eq_none_iff : modifyFlags f p fr = none ↔ ∃ x, p.get x = .dependent ∧ fr.get x = none := by
  constructor
  · intro hnone
    by_contra! hresults
    obtain ⟨f', hsome⟩ := exists_modifyFlags f hresults
    rw [hnone] at hsome
    cases hsome
  · rintro ⟨x, hdependent, hmissing⟩
    rw [Option.eq_none_iff_forall_ne_some]
    intro f' hsome
    have hresult := (modifyFlags_followsPolicy hsome x).dependent hdependent
    rw [hmissing] at hresult
    cases hresult

end

/-- Settles O40: each flag follows its policy, and no bit below the flags is written. -/
theorem modifyFlagsFollowsEachPolicy : Obligations.ModifyFlagsFollowsEachPolicy := by
  intro f p fr
  refine ⟨modifyFlags_eq_none_iff, fun f' h => ⟨fun j => modifyFlags_lowBit h, fun x => ?_⟩⟩
  obtain ⟨hkept, hset, hunset, hresult⟩ := modifyFlags_followsPolicy h x
  exact ⟨hkept, hset, hunset, hresult⟩

/-- RLCA from A = 0: the rotation of 0 is 0, and Z is forced to false all the same (R96). -/
theorem effect_rlca_of_zero {s : State} (h : s.a = 0) :
    (effect .rlca s).a = 0 ∧ (effect .rlca s).getFlag .zero = false := by
  constructor
  · show rotateLeftCircular s.a = 0
    rw [h]
    rfl
  · rw [State.getFlag, effect_f, flagsAfter, getLsbD_flagsAfterRotate]
    rfl

/-- Settles O41: a forced flag follows its policy, and RLCA forces Z. -/
theorem forcedFlagsIgnoreTheOperation : Obligations.ForcedFlagsIgnoreTheOperation := by
  refine ⟨fun f p fr f' x h => ?_, fun s hs => ⟨effect .rlca s, exec_effect rfl s, effect_rlca_of_zero hs⟩⟩
  exact ⟨(modifyFlags_followsPolicy h x).set, (modifyFlags_followsPolicy h x).unset⟩

end Sys2Proof.Machine
end

section
/-! The static checks of phase 2 decide the run: where none fails, the body and the flag policy are defined in every
state. -/

namespace Sys2Proof.Machine

section
variable {src dst : Operand} {s s' : State} {mode : ArithMode}

/-! Each body where its accesses answer (R76): the gets, then the set, then the Flag Result. -/

theorem bodyLd_of_w8 {v : Byte} (hwidth : loadWidth src dst = some .w8) (hget : get8 s src = some v)
    (hset : set8 s dst v = some s') : bodyLd src dst s = some (s', noFlagResult) := by
  simp only [bodyLd, hwidth, hget, hset, Option.bind_eq_bind, Option.bind_some, Option.pure_def]

theorem bodyLd_of_w16 {v : Word} (hwidth : loadWidth src dst = some .w16) (hget : get16 s src = some v)
    (hset : set16 s dst v = some s') : bodyLd src dst s = some (s', noFlagResult) := by
  simp only [bodyLd, hwidth, hget, hset, Option.bind_eq_bind, Option.bind_some, Option.pure_def]

theorem bodyIncDec_of_w8 {old : Byte} (hwidth : dst.width = some .w8) (hget : get8 s dst = some old)
    (hset : set8 s dst (step8 mode old) = some s') :
    bodyIncDec mode dst s = some (s', stepFlagResult (step8 mode old == 0) (halfCarry8 mode old 1)) := by
  simp only [bodyIncDec, hwidth, hget, hset, Option.bind_eq_bind, Option.bind_some, Option.pure_def]

theorem bodyIncDec_of_w16 {old : Word} (hwidth : dst.width = some .w16) (hget : get16 s dst = some old)
    (hset : set16 s dst (step16 mode old) = some s') :
    bodyIncDec mode dst s = some (s', stepFlagResult (step16 mode old == 0) (halfCarry16 mode old 1)) := by
  simp only [bodyIncDec, hwidth, hget, hset, Option.bind_eq_bind, Option.bind_some, Option.pure_def]

theorem bodyAdd_of_get {a b : Word} (hdst : get16 s dst = some a) (hsrc : get16 s src = some b)
    (hset : set16 s dst (a + b) = some s') : bodyAdd src dst s = some (s', addFlagResult a b) := by
  simp only [bodyAdd, hdst, hsrc, hset, Option.bind_eq_bind, Option.bind_some, Option.pure_def]

theorem bodyRotateLeft_of_get {old : Byte} (hget : get8 s dst = some old)
    (hset : set8 s dst (rotateLeftCircular old) = some s') :
    bodyRotateLeft dst s = some (s', rotateFlagResult old) := by
  simp only [bodyRotateLeft, hget, hset, Option.bind_eq_bind, Option.bind_some, Option.pure_def]

end

section
variable {src dst : Operand} {w : OperandWidth} (s : State)

/-! Each body completes on operands that are valid at its width (R84). -/

theorem exists_bodyLd (hwidth : loadWidth src dst = some w) (hsrc : src.validAt w = true) (hdst : dst.validAt w = true) :
    ∃ s', bodyLd src dst s = some (s', noFlagResult) := by
  cases w with
  | w8 =>
    obtain ⟨v, hget⟩ := exists_get8 s hsrc
    obtain ⟨s', hset⟩ := exists_set8 s hdst v
    exact ⟨s', bodyLd_of_w8 hwidth hget hset⟩
  | w16 =>
    obtain ⟨v, hget⟩ := exists_get16 s hsrc
    obtain ⟨s', hset⟩ := exists_set16 s hdst v
    exact ⟨s', bodyLd_of_w16 hwidth hget hset⟩

theorem exists_bodyIncDec (mode : ArithMode) (hwidth : dst.width = some w) (hdst : dst.validAt w = true) :
    ∃ s' isZero half, bodyIncDec mode dst s = some (s', stepFlagResult isZero half) := by
  cases w with
  | w8 =>
    obtain ⟨old, hget⟩ := exists_get8 s hdst
    obtain ⟨s', hset⟩ := exists_set8 s hdst (step8 mode old)
    exact ⟨s', _, _, bodyIncDec_of_w8 hwidth hget hset⟩
  | w16 =>
    obtain ⟨old, hget⟩ := exists_get16 s hdst
    obtain ⟨s', hset⟩ := exists_set16 s hdst (step16 mode old)
    exact ⟨s', _, _, bodyIncDec_of_w16 hwidth hget hset⟩

theorem exists_bodyAdd (hdst : dst.valid16 = true) (hsrc : src.valid16 = true) :
    ∃ s' a b, bodyAdd src dst s = some (s', addFlagResult a b) := by
  obtain ⟨a, ha⟩ := exists_get16 s hdst
  obtain ⟨b, hb⟩ := exists_get16 s hsrc
  obtain ⟨s', hset⟩ := exists_set16 s hdst (a + b)
  exact ⟨s', a, b, bodyAdd_of_get ha hb hset⟩

theorem exists_bodyRotateLeft (hdst : dst.valid8 = true) :
    ∃ s' old, bodyRotateLeft dst s = some (s', rotateFlagResult old) := by
  obtain ⟨old, hget⟩ := exists_get8 s hdst
  obtain ⟨s', hset⟩ := exists_set8 s hdst (rotateLeftCircular old)
  exact ⟨s', old, bodyRotateLeft_of_get hget hset⟩

end

/-- A Flag Result has a value for each flag that a kind computes (R93). -/
def FlagResult.Covers (fr : FlagResult) (kind : OpKind) : Prop := ∀ x, kind.computes x = true → fr.get x ≠ none

/-- NOP and LD compute no flag. -/
theorem covers_noFlagResult {kind : OpKind} (h : kind = .nop ∨ kind = .ld) : noFlagResult.Covers kind := by
  obtain rfl | rfl := h <;> exact nofun

/-- INC and DEC compute Z and H. -/
theorem covers_stepFlagResult {kind : OpKind} (h : kind = .inc ∨ kind = .dec) (isZero half : Bool) :
    (stepFlagResult isZero half).Covers kind := by
  intro x hx
  cases x with
  | zero | halfCarry => exact nofun
  | subtract | carry => obtain rfl | rfl := h <;> cases hx

/-- ADD computes all flags but N. -/
theorem covers_addFlagResult (a b : Word) : (addFlagResult a b).Covers .add := by
  intro x hx
  cases x with
  | zero | halfCarry | carry => exact nofun
  | subtract => cases hx

/-- RXC(Left) computes the Carry alone. -/
theorem covers_rotateFlagResult (old : Byte) : (rotateFlagResult old).Covers (.rxc .left) := by
  intro x hx
  cases x with
  | carry => exact nofun
  | zero | subtract | halfCarry => cases hx

/-- A valid Instruction's body completes in every state, with a result for each flag that its kind computes (R76, R84, R93). -/
theorem exists_execBody {i : Descriptor} (hkind : i.kind ≠ .rxc .right) (hvalid : i.widthValid = true) (s : State) :
    ∃ s' fr, execBody i s = some (s', fr) ∧ fr.Covers i.kind := by
  unfold Descriptor.widthValid at hvalid
  split at hvalid
  · next hk =>
    exact ⟨s, _, by simp only [execBody, hk, bodyNop], covers_noFlagResult (.inl hk)⟩
  · next src dst hk hsrc hdst =>
    split at hvalid
    · next w hwidth =>
      obtain ⟨hvalidSrc, hvalidDst⟩ := (Bool.and_eq_true _ _).mp hvalid
      obtain ⟨s', hbody⟩ := exists_bodyLd s hwidth hvalidSrc hvalidDst
      exact ⟨s', _, by simp only [execBody, hk, hsrc, hdst, hbody], covers_noFlagResult (.inr hk)⟩
    · cases hvalid
  · next dst hk hdst =>
    split at hvalid
    · next w hwidth =>
      obtain ⟨s', z, half, hbody⟩ := exists_bodyIncDec s .add hwidth hvalid
      exact ⟨s', _, by simp only [execBody, hk, hdst, hbody], covers_stepFlagResult (.inl hk) z half⟩
    · cases hvalid
  · next dst hk hdst =>
    split at hvalid
    · next w hwidth =>
      obtain ⟨s', z, half, hbody⟩ := exists_bodyIncDec s .subtract hwidth hvalid
      exact ⟨s', _, by simp only [execBody, hk, hdst, hbody], covers_stepFlagResult (.inr hk) z half⟩
    · cases hvalid
  · next src dst hk hsrc hdst =>
    obtain ⟨hvalidDst, hvalidSrc⟩ := (Bool.and_eq_true _ _).mp hvalid
    obtain ⟨s', a, b, hbody⟩ := exists_bodyAdd s hvalidDst hvalidSrc
    exact ⟨s', _, by simp only [execBody, hk, hsrc, hdst, hbody], hk ▸ covers_addFlagResult a b⟩
  · next dst hk hdst =>
    obtain ⟨s', old, hbody⟩ := exists_bodyRotateLeft s hvalid
    exact ⟨s', _, by simp only [execBody, hk, hdst, hbody], hk ▸ covers_rotateFlagResult old⟩
  · next hk => exact absurd hk hkind
  · cases hvalid

/-- A flag with a Dependent policy is one the kind computes, where check (F) passes (R93). -/
theorem computes_of_dependent {i : Descriptor} (h : i.flagsComputable = true) {x : Flag}
    (hx : i.policy.get x = .dependent) : i.kind.computes x = true := by
  have hmem : x ∈ [Flag.zero, .subtract, .halfCarry, .carry] := by cases x <;> decide
  simpa [hx] using List.all_eq_true.mp h x hmem

section
variable {op : Byte} {i : Descriptor}

/-- The first static failure is the run's answer, in every state (R77, R124). -/
theorem runDescriptor_of_staticFailure {failure : Fault} (h : firstStaticFailure op i = some failure) (s : State) :
    runDescriptor op i s = .fail failure := by
  unfold firstStaticFailure at h
  split_ifs at h with hkind hvalid hflags <;> cases h
  · rw [runDescriptor, if_pos hkind, raiseFailure_eq]
  · rw [runDescriptor, if_neg hkind, if_pos hvalid, raiseFailure_eq]
  · rw [runDescriptor, if_neg hkind, if_neg hvalid, if_pos hflags, raiseFailure_eq]

/-- No check fails exactly on the Instructions that R73 calls well-formed. -/
theorem firstStaticFailure_eq_none_iff : firstStaticFailure op i = none ↔
    i.kind ≠ .rxc .right ∧ i.widthValid = true ∧ i.flagsComputable = true := by
  unfold firstStaticFailure
  split_ifs with hkind hvalid hflags
  · exact ⟨nofun, fun ⟨h, _, _⟩ => absurd hkind h⟩
  · exact ⟨nofun, fun ⟨_, h, _⟩ => absurd h (Bool.eq_false_iff.mp hvalid)⟩
  · exact ⟨nofun, fun ⟨_, _, h⟩ => absurd h (Bool.eq_false_iff.mp hflags)⟩
  · exact ⟨fun _ => ⟨hkind, Bool.eq_true_of_not_eq_false hvalid, Bool.eq_true_of_not_eq_false hflags⟩, fun _ => rfl⟩

theorem firstStaticFailure_of_wellFormed (h : i.wellFormed = true) : firstStaticFailure op i = none := by
  simp only [Descriptor.wellFormed, Bool.and_eq_true, bne_iff_ne] at h
  obtain ⟨⟨hvalid, hflags⟩, hkind⟩ := h
  exact firstStaticFailure_eq_none_iff.mpr ⟨hkind, hvalid, hflags⟩

/-- An Instruction that passes the checks completes in every state: its body is defined, and each Dependent flag has a result. -/
theorem exists_runDescriptor_ok (h : firstStaticFailure op i = none) (s : State) :
    ∃ t, runDescriptor op i s = .ok t i.cycles ∧ t.pc = advancePc s.pc i.length := by
  obtain ⟨hkind, hvalid, hflags⟩ := firstStaticFailure_eq_none_iff.mp h
  obtain ⟨s', fr, hbody, hcovers⟩ := exists_execBody hkind hvalid s
  obtain ⟨f, hmodify⟩ := exists_modifyFlags s'.f fun x hx => hcovers x (computes_of_dependent hflags hx)
  refine ⟨{ s' with f := f, pc := advancePc s.pc i.length }, ?_, rfl⟩
  simp only [runDescriptor, hkind, hvalid, hflags, hbody, commitStep, hmodify, if_false, Bool.true_eq_false]

end

/-- Settles O22: the first check that fails is the run's answer, and where none fails the run completes. -/
theorem staticChecksDecideEveryFailure : Obligations.StaticChecksDecideEveryFailure := by
  intro op i s
  split
  · next failure hfails =>
    have hrun := runDescriptor_of_staticFailure hfails s
    exact ⟨hrun, by rw [hrun]; rfl⟩
  · next hpasses => exact exists_runDescriptor_ok hpasses s

/-- Settles O26: the opcode finds the entry, and the entry's Instruction is well-formed at every PC. -/
theorem everyDecodedStepAdvancesPcAndReportsItsStaticCost :
    Obligations.EveryDecodedStepAdvancesPcAndReportsItsStaticCost := by
  intro cfg e he s
  obtain ⟨hwellFormed, -⟩ := everyTableEntryIsWellFormed cfg e he
  obtain ⟨i, -, hentry⟩ := mem_decodeTable_iff.mp he
  rw [stepWith, opcode_of_entry hentry, decodeWith_of_entry hentry]
  exact exists_runDescriptor_ok (firstStaticFailure_of_wellFormed (hwellFormed s.pc)) s

/-- Settles O4: whatever the decoder reads at PC is well-formed, and the step runs it. -/
theorem stepRunsTheDecodedInstruction : Obligations.StepRunsTheDecodedInstruction := by
  intro s a rest h
  obtain ⟨op, hinstr, -, -⟩ := decode_ok h
  exact ⟨by rw [hinstr, wf_decodeOpcode], step_of_decode h⟩

end Sys2Proof.Machine
end

section
/-! NOP: no operand effect, no flag, and the common PC advance alone (R101, R102). -/

namespace Sys2Proof.Machine

/-- Settles O9: NOP's effect is the PC advance, and row 0x00 costs 4. -/
theorem nopOnlyAdvancesPc : Obligations.NopOnlyAdvancesPc := by
  intro s
  have hentry : instrEntry config .nop = some (entryNop config) := rfl
  exact ⟨exec_effect hentry s, coreStep_of_entry hentry s⟩

/-- The body of any NOP Instruction, whatever operands it carries (R101). -/
theorem execBody_of_nop {i : Descriptor} (h : i.kind = .nop) (s : State) : execBody i s = some (s, noFlagResult) := by
  simp only [execBody, h, bodyNop]

/-- The all-Unmodified policy is one policy: `policyKeep` (R62). -/
theorem eq_policyKeep {p : FlagPolicies} (h : ∀ x, p.get x = .unmodified) : p = policyKeep := by
  obtain ⟨z, n, hc, c⟩ := p
  exact (FlagPolicies.mk.injEq ..).mpr ⟨h .zero, h .subtract, h .halfCarry, h .carry⟩

/-- The all-Unmodified policy keeps F, whatever the Flag Result (R94). -/
theorem modifyFlags_policyKeep (f : Byte) (fr : FlagResult) : modifyFlags f policyKeep fr = some f := rfl

/-- Settles O34: the body hands the state on, and the commit keeps F, so the PC advance is all that is left of a run. -/
theorem nopBodyHasNoOperandEffects : Obligations.NopBodyHasNoOperandEffects := by
  intro i s hkind
  have hnop := execBody_of_nop hkind s
  refine ⟨hnop, fun op t n hrun hkeep => ?_⟩
  obtain ⟨-, -, -, -, s', fr, f, hbody, hflags, rfl⟩ := runDescriptor_ok hrun
  rw [hnop] at hbody
  cases hbody
  rw [eq_policyKeep hkeep, modifyFlags_policyKeep] at hflags
  cases hflags
  rfl

end Sys2Proof.Machine
end

section
/-! LD: the four rows' effects byte by byte (R104–R107), and the one body over any two operands (R103). -/

namespace Sys2Proof.Machine

/-- The two bytes of the word after the opcode, each at its own address (R58, R104). -/
theorem effect_ldBcD16 (s : State) : effect .ldBcD16 s =
    { s with b := Memory.read8 s.mem (s.pc + 2), c := Memory.read8 s.mem (s.pc + 1), pc := s.pc + 3 } := by
  simp only [effect, State.setReg16, Memory.read16, hiByte_joinBytes, loByte_joinBytes, add_one_add_one]

/-- Settles O10: LD BC,d16's effect byte by byte, and row 0x01 costs 12. -/
theorem loadBcImmediateResult : Obligations.LoadBcImmediateResult := by
  intro s
  have hentry : instrEntry config .ldBcD16 = some (entryLdBcD16 config) := rfl
  exact ⟨effect .ldBcD16 s, exec_effect hentry s, coreStep_of_entry hentry s, effect_ldBcD16 s⟩

/-- Settles O15: LD B,d8's effect is its one register write and the PC advance. -/
theorem loadBImmediateResult : Obligations.LoadBImmediateResult := by
  intro s
  have hentry : instrEntry config .ldBD8 = some (entryLdBD8 config) := rfl
  exact ⟨effect .ldBD8 s, exec_effect hentry s, coreStep_of_entry hentry s, rfl⟩

/-- Settles O11: LD (BC),A's effect is one byte write at BC and the PC advance. -/
theorem storeAToBcResult : Obligations.StoreAToBcResult := by
  intro s
  have hentry : instrEntry config .ldBcA = some (entryLdBcA config) := rfl
  refine ⟨effect .ldBcA s, exec_effect hentry s, coreStep_of_entry hentry s, rfl, fun addr haddr => ?_⟩
  obtain rfl : joinBytes s.b s.c = addr := Option.some.inj haddr
  exact ⟨rfl, read8_write8_same s.mem _ s.a, fun _ => read8_write8_other s.mem s.a⟩

/-- Settles O17: LD (a16),SP's effect is one 16-bit write, at the word that the state before it holds after the opcode. -/
theorem storeSpResult : Obligations.StoreSpResult := by
  intro s
  have hentry : instrEntry config .ldA16Sp = some (entryLdA16Sp config) := rfl
  refine ⟨effect .ldA16Sp s, exec_effect hentry s, coreStep_of_entry hentry s, rfl, fun addr haddr => ?_⟩
  obtain rfl : Memory.read16 s.mem (s.pc + 1) = addr := Option.some.inj haddr
  refine ⟨?_, ?_, ?_, fun _ => read8_write16_other s.mem s.sp⟩
  · rw [Memory.read16, add_one_add_one]
  · rw [effect, read8_write16_low, toNat_loByte]
  · rw [effect, read8_write16_high, toNat_hiByte]

/-- The width of an LD is the first of its operands' fixed widths (R103). -/
theorem loadWidth_eq_or (src dst : Operand) : loadWidth src dst = src.width.or dst.width := by
  cases src <;> rfl

section
variable {i : Descriptor} {src dst : Operand} (hkind : i.kind = .ld) (hsrc : i.src = some src) (hdst : i.dst = some dst)
include hkind hsrc hdst

theorem execBody_of_ld (s : State) : execBody i s = bodyLd src dst s := by
  simp only [execBody, hkind, hsrc, hdst]

/-- A valid LD has a width, at which both its accesses are valid (R84). -/
theorem exists_loadWidth_of_widthValid (h : i.widthValid = true) :
    ∃ w, loadWidth src dst = some w ∧ src.validAt w = true ∧ dst.validAt w = true := by
  simp only [Descriptor.widthValid, hkind, hsrc, hdst] at h
  split at h
  · next w hwidth => exact ⟨w, hwidth, (Bool.and_eq_true _ _).mp h⟩
  · cases h

end

/-- Settles O35: at the one width of the LD, the get and the set are defined, and the body is the get and then the set. -/
theorem loadBodyCopiesAtTheSourceWidth : Obligations.LoadBodyCopiesAtTheSourceWidth := by
  intro i src dst s hkind hsrc hdst hvalid
  obtain ⟨w, hwidth, hvalidSrc, hvalidDst⟩ := exists_loadWidth_of_widthValid hkind hsrc hdst hvalid
  rw [execBody_of_ld hkind hsrc hdst, ← loadWidth_eq_or, hwidth]
  refine ⟨?_, ?_, nofun⟩
  · rintro ⟨rfl⟩
    obtain ⟨v, hget⟩ := exists_get8 s hvalidSrc
    obtain ⟨s', hset⟩ := exists_set8 s hvalidDst v
    exact ⟨v, s', hget, hset, bodyLd_of_w8 hwidth hget hset⟩
  · rintro ⟨rfl⟩
    obtain ⟨v, hget⟩ := exists_get16 s hvalidSrc
    obtain ⟨s', hset⟩ := exists_set16 s hvalidDst v
    exact ⟨v, s', hget, hset, bodyLd_of_w16 hwidth hget hset⟩

end Sys2Proof.Machine
end

section
/-! INC and DEC: the three rows' effects on B, C and F (R110–R112), and the one body over any valid operand at either width
(R108, R109). -/

namespace Sys2Proof.Machine

/-- A word is its two bytes joined, so what is written to B and C is read back as the sum (R109, R110). -/
theorem toNat_effect_incBc (s : State) :
    (effect .incBc s).b.toNat * 256 + (effect .incBc s).c.toNat = (s.b.toNat * 256 + s.c.toNat + 1) % 65536 := by
  have hjoin : joinBytes (effect .incBc s).b (effect .incBc s).c = joinBytes s.b s.c + 1 := joinBytes_hiByte_loByte _
  rw [← toNat_joinBytes, hjoin, BitVec.toNat_add, toNat_joinBytes]
  rfl

/-- Settles O12: INC BC's effect is one write of the pair and the PC advance, at row 0x03's cost. -/
theorem incBcResult : Obligations.IncBcResult := by
  intro s
  have hentry : instrEntry config .incBc = some (entryIncBc config) := rfl
  exact ⟨effect .incBc s, exec_effect hentry s, coreStep_of_entry hentry s, rfl, toNat_effect_incBc s⟩

/-- A value is 0 exactly when its number is. -/
theorem beq_zero_eq_decide_toNat {w : Nat} (v : BitVec w) : (v == 0) = decide (v.toNat = 0) := by
  rw [beq_eq_decide, decide_eq_decide, ← BitVec.toNat_inj, BitVec.ofNat_eq_ofNat, BitVec.toNat_zero]

/-- The flags byte after an 8-bit INC or DEC, flag by flag: Carry and the low nibble are not written (R111, R112). -/
theorem flags_of_flagsAfterStep {s t : State} {new : Byte} {sub half : Bool} (h : t.f = flagsAfterStep s.f new sub half) :
    lowNibbleKept s t ∧ t.getFlag .zero = decide (new.toNat = 0) ∧ t.getFlag .subtract = sub ∧
      t.getFlag .halfCarry = half ∧ t.getFlag .carry = s.getFlag .carry := by
  refine ⟨fun j hj => ?_, ?_, ?_, ?_, ?_⟩
  · have hne : ∀ x : Flag, j ≠ x.bit := fun x => (Nat.lt_of_lt_of_le hj (four_le_bit x)).ne
    rw [h, getLsbD_flagsAfterStep, if_neg (hne _), if_neg (hne _), if_neg (hne _)]
  · rw [← beq_zero_eq_decide_toNat, State.getFlag, h, getLsbD_flagsAfterStep]
    rfl
  all_goals
    rw [State.getFlag, h, getLsbD_flagsAfterStep]
    rfl

/-! The half-carry and the borrow of a value and 1: the low part is at its greatest, or is 0 (R89–R92). -/

theorem addHalfCarry8_one (a : Byte) : addHalfCarry8 a 1 = decide (a.toNat % 16 + 1 ≥ 16) := by
  obtain ⟨hbytes, -⟩ := flagPredicatesCompareInTheIntegers
  obtain ⟨-, hhalf, -, -⟩ := hbytes a 1
  exact hhalf

theorem subHalfCarry8_one (a : Byte) : subHalfCarry8 a 1 = decide (a.toNat % 16 < 1) := by
  obtain ⟨hbytes, -⟩ := flagPredicatesCompareInTheIntegers
  obtain ⟨-, -, -, hborrow⟩ := hbytes a 1
  exact hborrow

theorem halfCarry8_add_one (a : Byte) : halfCarry8 .add a 1 = decide (a.toNat % 16 = 15) := by
  rw [halfCarry8, addHalfCarry8_one, decide_eq_decide]
  omega

theorem halfCarry8_subtract_one (a : Byte) : halfCarry8 .subtract a 1 = decide (a.toNat % 16 = 0) := by
  rw [halfCarry8, subHalfCarry8_one, decide_eq_decide]
  omega

theorem toNat_one_and_low12 : ((1 : Word) &&& 0xFFF).toNat = 1 := rfl

theorem halfCarry16_add_one (a : Word) : halfCarry16 .add a 1 = decide (a.toNat % 4096 = 4095) := by
  rw [halfCarry16, addHalfCarry16, toNat_and_low12, toNat_one_and_low12, decide_eq_decide]
  omega

theorem halfCarry16_subtract_one (a : Word) : halfCarry16 .subtract a 1 = decide (a.toNat % 4096 = 0) := by
  rw [halfCarry16, subHalfCarry16, toNat_and_low12, toNat_one_and_low12, decide_eq_decide]
  omega

/-! The stepped value as a number (R108, R109). -/

theorem toNat_step8_add (old : Byte) : (step8 .add old).toNat = (old.toNat + 1) % 256 := BitVec.toNat_add old 1

theorem toNat_step8_subtract (old : Byte) : (step8 .subtract old).toNat = (old.toNat + 255) % 256 := by
  rw [step8, BitVec.toNat_sub, Nat.add_comm]
  rfl

/-- The difference in the integers and the sum with 255 leave one remainder (R112). -/
theorem toNat_step8_subtract_int (old : Byte) : ((step8 .subtract old).toNat : Int) = ((old.toNat : Int) - 1) % 256 := by
  rw [toNat_step8_subtract]
  omega

theorem toNat_step16_add (old : Word) : (step16 .add old).toNat = (old.toNat + 1) % 65536 := BitVec.toNat_add old 1

theorem toNat_step16_subtract (old : Word) : (step16 .subtract old).toNat = (old.toNat + 65535) % 65536 := by
  rw [step16, BitVec.toNat_sub, Nat.add_comm]
  rfl

/-- Settles O13: INC B's effect is one register write, the three flags of its policy and the PC advance, at row 0x04's cost. -/
theorem incBResult : Obligations.IncBResult := by
  intro s
  have hentry : instrEntry config .incB = some (entryIncB config) := rfl
  obtain ⟨hlow, hzero, hsubtract, hhalf, hcarry⟩ := flags_of_flagsAfterStep (effect_f .incB s)
  rw [addHalfCarry8_one] at hhalf
  exact ⟨effect .incB s, exec_effect hentry s, coreStep_of_entry hentry s, rfl, hlow, toNat_step8_add s.b,
    hzero, hsubtract, hhalf, hcarry⟩

/-- Settles O14: DEC B's effect is one register write, the three flags of its policy and the PC advance, at row 0x05's cost. -/
theorem decBResult : Obligations.DecBResult := by
  intro s
  have hentry : instrEntry config .decB = some (entryDecB config) := rfl
  obtain ⟨hlow, hzero, hsubtract, hhalf, hcarry⟩ := flags_of_flagsAfterStep (effect_f .decB s)
  rw [subHalfCarry8_one] at hhalf
  exact ⟨effect .decB s, exec_effect hentry s, coreStep_of_entry hentry s, rfl, hlow, toNat_step8_subtract_int s.b,
    hzero, hsubtract, hhalf, hcarry⟩

/-- The kind whose body steps the operand in this mode (R108). -/
def ArithMode.stepKind : ArithMode → OpKind
  | .add => .inc
  | .subtract => .dec

section
variable {mode : ArithMode} {i : Descriptor} {dst : Operand} (hkind : i.kind = mode.stepKind) (hdst : i.dst = some dst)
include hkind hdst

theorem execBody_of_stepKind (s : State) : execBody i s = bodyIncDec mode dst s := by
  cases mode <;> simp only [execBody, hkind, hdst, ArithMode.stepKind]

/-- A valid INC or DEC accesses its operand at the operand's own width (R84, D14). -/
theorem validAt_of_widthValid {w : OperandWidth} (hvalid : i.widthValid = true) (hwidth : dst.width = some w) :
    dst.validAt w = true := by
  cases mode <;> simpa only [Descriptor.widthValid, hkind, hdst, ArithMode.stepKind, hwidth] using hvalid

/-- An 8-bit INC or DEC completes: the stepped value is written back, with Z of it and H of the old value (R108). -/
theorem exists_execBody_step8 (hvalid : i.widthValid = true) (hwidth : dst.width = some .w8) (s : State) :
    ∃ old s', get8 s dst = some old ∧ set8 s dst (step8 mode old) = some s' ∧
      execBody i s = some (s', stepFlagResult (decide ((step8 mode old).toNat = 0)) (halfCarry8 mode old 1)) := by
  have hvalidDst := validAt_of_widthValid hkind hdst hvalid hwidth
  obtain ⟨old, hget⟩ := exists_get8 s hvalidDst
  obtain ⟨s', hset⟩ := exists_set8 s hvalidDst (step8 mode old)
  refine ⟨old, s', hget, hset, ?_⟩
  rw [execBody_of_stepKind hkind hdst, bodyIncDec_of_w8 hwidth hget hset, beq_zero_eq_decide_toNat]

/-- A 16-bit INC or DEC completes in the same way (R109). -/
theorem exists_execBody_step16 (hvalid : i.widthValid = true) (hwidth : dst.width = some .w16) (s : State) :
    ∃ old s', get16 s dst = some old ∧ set16 s dst (step16 mode old) = some s' ∧
      execBody i s = some (s', stepFlagResult (decide ((step16 mode old).toNat = 0)) (halfCarry16 mode old 1)) := by
  have hvalidDst := validAt_of_widthValid hkind hdst hvalid hwidth
  obtain ⟨old, hget⟩ := exists_get16 s hvalidDst
  obtain ⟨s', hset⟩ := exists_set16 s hvalidDst (step16 mode old)
  refine ⟨old, s', hget, hset, ?_⟩
  rw [execBody_of_stepKind hkind hdst, bodyIncDec_of_w16 hwidth hget hset, beq_zero_eq_decide_toNat]

end

/-- Settles O36: at each width the body is the get, the step and the set, and 1 carries or borrows where the low part says. -/
theorem incDecBodiesAtBothWidths : Obligations.IncDecBodiesAtBothWidths := by
  intro i dst s hdst hvalid
  refine ⟨fun hkind hwidth => ?_, fun hkind hwidth => ?_, fun hkind hwidth => ?_, fun hkind hwidth => ?_⟩
  · obtain ⟨old, s', hget, hset, hbody⟩ := exists_execBody_step8 (mode := .add) hkind hdst hvalid hwidth s
    rw [halfCarry8_add_one] at hbody
    exact ⟨old, _, s', hget, hset, toNat_step8_add old, hbody⟩
  · obtain ⟨old, s', hget, hset, hbody⟩ := exists_execBody_step8 (mode := .subtract) hkind hdst hvalid hwidth s
    rw [halfCarry8_subtract_one] at hbody
    exact ⟨old, _, s', hget, hset, toNat_step8_subtract old, hbody⟩
  · obtain ⟨old, s', hget, hset, hbody⟩ := exists_execBody_step16 (mode := .add) hkind hdst hvalid hwidth s
    rw [halfCarry16_add_one] at hbody
    exact ⟨old, _, s', hget, hset, toNat_step16_add old, hbody⟩
  · obtain ⟨old, s', hget, hset, hbody⟩ := exists_execBody_step16 (mode := .subtract) hkind hdst hvalid hwidth s
    rw [halfCarry16_subtract_one] at hbody
    exact ⟨old, _, s', hget, hset, toNat_step16_subtract old, hbody⟩

end Sys2Proof.Machine
end

section
/-! ADD: the one row's effect on H, L and F under either Zero policy (R114), and the body over any two 16-bit operands (R113). -/

namespace Sys2Proof.Machine

theorem addHalfCarry16_eq_decide (a b : Word) :
    addHalfCarry16 a b = decide (a.toNat % 4096 + b.toNat % 4096 ≥ 0x1000) := by
  obtain ⟨-, hwords⟩ := flagPredicatesCompareInTheIntegers
  obtain ⟨-, hhalf⟩ := hwords a b
  exact hhalf

/-- The Flag Result of ADD over the integers (R93, R113). -/
theorem addFlagResult_eq (a b : Word) : addFlagResult a b =
    ⟨some (decide ((a + b).toNat = 0)), none, some (decide (a.toNat % 4096 + b.toNat % 4096 ≥ 0x1000)),
      some (decide (a.toNat + b.toNat > 0xFFFF))⟩ := by
  rw [addFlagResult, beq_zero_eq_decide_toNat, halfCarry16, addHalfCarry16_eq_decide]
  rfl

section
variable {i : Descriptor} {src dst : Operand} (hkind : i.kind = .add) (hsrc : i.src = some src) (hdst : i.dst = some dst)
include hkind hsrc hdst

theorem execBody_of_add (s : State) : execBody i s = bodyAdd src dst s := by
  simp only [execBody, hkind, hsrc, hdst]

/-- A valid ADD accesses both its operands at 16 bits (R84, D24). -/
theorem valid16_of_widthValid (h : i.widthValid = true) : dst.valid16 = true ∧ src.valid16 = true := by
  simp only [Descriptor.widthValid, hkind, hsrc, hdst] at h
  exact (Bool.and_eq_true _ _).mp h

end

/-- Settles O37: both gets and the set are defined at 16 bits, and the body is the gets and then the set. -/
theorem addBodySumsSixteenBitOperands : Obligations.AddBodySumsSixteenBitOperands := by
  intro i src dst s hkind hsrc hdst hvalid
  obtain ⟨hvalidDst, hvalidSrc⟩ := valid16_of_widthValid hkind hsrc hdst hvalid
  obtain ⟨a, ha⟩ := exists_get16 s hvalidDst
  obtain ⟨b, hb⟩ := exists_get16 s hvalidSrc
  obtain ⟨s', hset⟩ := exists_set16 s hvalidDst (a + b)
  refine ⟨a, b, a + b, s', ha, hb, BitVec.toNat_add a b, hset, ?_⟩
  rw [execBody_of_add hkind hsrc hdst, bodyAdd_of_get ha hb hset, addFlagResult_eq]

/-- The state after ADD HL,BC under a Zero policy: HL gets the sum with BC, then F and PC are committed (R114). -/
def effectAddHlBc (p : Add16ZeroPolicy) (s : State) : State :=
  { s.setReg16 .hl (joinBytes s.h s.l + joinBytes s.b s.c) with
    f := flagsAfterAdd p s.f (joinBytes s.h s.l) (joinBytes s.b s.c), pc := s.pc + 1 }

/-- Opcode 0x09 over the decode table of any configuration. -/
theorem stepWith_addHlBc (cfg : Config) (s : State) : stepWith (decodeTable cfg) 0x09 s =
    .ok (effectAddHlBc cfg.add16ZeroPolicy s) cfg.cycleCost.addHlBc := by
  have hentry : instrEntry cfg .addHlBc = some (entryAddHlBc cfg) := rfl
  have hdecode : decodeWith (decodeTable cfg) 0x09 s.pc = some ((entryAddHlBc cfg).descriptor s.pc) :=
    decodeWith_of_entry hentry s.pc
  rw [stepWith, hdecode]
  exact runEntry_addHlBc cfg s

/-- The meaning's effect is the one of this machine's Zero policy. -/
theorem effect_addHlBc (s : State) : effect .addHlBc s = effectAddHlBc config.add16ZeroPolicy s := rfl

/-- The low twelve bits of a pair are its high byte's low nibble and its low byte. -/
theorem toNat_joinBytes_mod_4096 (hi lo : Byte) :
    (joinBytes hi lo).toNat % 4096 = hi.toNat % 16 * 256 + lo.toNat := by
  have hlo := lo.isLt
  rw [toNat_joinBytes]
  omega

section
variable (p : Add16ZeroPolicy) (s : State)

/-- HL after the instruction, read as the pair that was written. -/
theorem joinBytes_effectAddHlBc : joinBytes (effectAddHlBc p s).h (effectAddHlBc p s).l =
    joinBytes s.h s.l + joinBytes s.b s.c := joinBytes_hiByte_loByte _

/-- HL is the sum of the two pairs, wrapped at 2^16 (R114). -/
theorem toNat_effectAddHlBc : (effectAddHlBc p s).h.toNat * 256 + (effectAddHlBc p s).l.toNat =
    (s.h.toNat * 256 + s.l.toNat + (s.b.toNat * 256 + s.c.toNat)) % 65536 := by
  rw [← toNat_joinBytes, joinBytes_effectAddHlBc, BitVec.toNat_add, toNat_joinBytes, toNat_joinBytes]

/-- No bit below the flags is written. -/
theorem lowNibbleKept_effectAddHlBc : lowNibbleKept s (effectAddHlBc p s) := by
  intro j hj
  have hne : ∀ x : Flag, j ≠ x.bit := fun x => (Nat.lt_of_lt_of_le hj (four_le_bit x)).ne
  rw [effectAddHlBc, getLsbD_flagsAfterAdd, if_neg (hne _), if_neg (hne _), if_neg (hne _),
    if_neg fun hzero => hne _ hzero.1]

/-- Z is kept or is the zero test of the new HL, as the policy says (R114, D3). -/
theorem getFlag_zero_effectAddHlBc : (effectAddHlBc p s).getFlag .zero = (match p with
    | .unmodified => s.getFlag .zero
    | .dependent => decide ((effectAddHlBc p s).h.toNat * 256 + (effectAddHlBc p s).l.toNat = 0)) := by
  cases p with
  | unmodified =>
    rw [State.getFlag, effectAddHlBc, getLsbD_flagsAfterAdd]
    rfl
  | dependent =>
    rw [← toNat_joinBytes, joinBytes_effectAddHlBc, ← beq_zero_eq_decide_toNat, State.getFlag, effectAddHlBc,
      getLsbD_flagsAfterAdd]
    rfl

theorem getFlag_subtract_effectAddHlBc : (effectAddHlBc p s).getFlag .subtract = false := by
  rw [State.getFlag, effectAddHlBc, getLsbD_flagsAfterAdd]
  rfl

/-- H is the carry out of bit 11 of HL + BC (R91, R114). -/
theorem getFlag_halfCarry_effectAddHlBc : (effectAddHlBc p s).getFlag .halfCarry =
    decide ((s.h.toNat % 16 * 256 + s.l.toNat) + (s.b.toNat % 16 * 256 + s.c.toNat) ≥ 0x1000) := by
  have hhalf := addHalfCarry16_eq_decide (joinBytes s.h s.l) (joinBytes s.b s.c)
  rw [toNat_joinBytes_mod_4096, toNat_joinBytes_mod_4096] at hhalf
  rw [State.getFlag, effectAddHlBc, getLsbD_flagsAfterAdd, ← hhalf]
  rfl

/-- C is the carry out of bit 15 of HL + BC (R91, R114). -/
theorem getFlag_carry_effectAddHlBc : (effectAddHlBc p s).getFlag .carry =
    decide ((s.h.toNat * 256 + s.l.toNat) + (s.b.toNat * 256 + s.c.toNat) > 0xFFFF) := by
  rw [← toNat_joinBytes, ← toNat_joinBytes, State.getFlag, effectAddHlBc, getLsbD_flagsAfterAdd]
  rfl

/-- The policy decides F alone. -/
theorem effectAddHlBc_otherPolicy (p' : Add16ZeroPolicy) :
    effectAddHlBc p' s = { effectAddHlBc p s with f := (effectAddHlBc p' s).f } := rfl

/-- The policy decides no flag but Z. -/
theorem getFlag_effectAddHlBc_otherPolicy (p' : Add16ZeroPolicy) {x : Flag} (hx : x ≠ .zero) :
    (effectAddHlBc p' s).getFlag x = (effectAddHlBc p s).getFlag x := by
  cases x with
  | zero => exact absurd rfl hx
  | subtract => rw [getFlag_subtract_effectAddHlBc, getFlag_subtract_effectAddHlBc]
  | halfCarry => rw [getFlag_halfCarry_effectAddHlBc, getFlag_halfCarry_effectAddHlBc]
  | carry => rw [getFlag_carry_effectAddHlBc, getFlag_carry_effectAddHlBc]

end

/-- Settles O18: the meaning and opcode 0x09 end in the effect under this machine's Zero policy. -/
theorem addHlBcResult : Obligations.AddHlBcResult := by
  intro s
  have hexec : exec .addHlBc s = .next (effect .addHlBc s) := exec_effect rfl s
  rw [effect_addHlBc] at hexec
  exact ⟨_, hexec, stepWith_addHlBc config s, rfl, lowNibbleKept_effectAddHlBc _ s, toNat_effectAddHlBc _ s,
    getFlag_zero_effectAddHlBc _ s, getFlag_subtract_effectAddHlBc _ s, getFlag_halfCarry_effectAddHlBc _ s,
    getFlag_carry_effectAddHlBc _ s⟩

/-- Settles O19: each configuration's step ends in the effect under its own Zero policy, which decides Z and nothing else. -/
theorem addHlBcZeroFlagUnderEachPolicy : Obligations.AddHlBcZeroFlagUnderEachPolicy := by
  intro cfg s
  refine ⟨_, stepWith_addHlBc cfg s, getFlag_zero_effectAddHlBc _ s, fun cfg' t' n' hstep => ?_⟩
  rw [stepWith_addHlBc] at hstep
  cases hstep
  exact ⟨effectAddHlBc_otherPolicy _ s _, fun x hx => getFlag_effectAddHlBc_otherPolicy _ s _ hx⟩

end Sys2Proof.Machine
end

section
/-! RXC: the one row's effect on A and F, once and eight times in a row (R115, R116), and the failure of RXC(Right) (R117). -/

namespace Sys2Proof.Machine

/-- R115's formula is the library's rotation by one place. -/
theorem rotateLeftCircular_eq (v : Byte) : rotateLeftCircular v = v.rotateLeft 1 := rfl

/-- Each bit goes one place up, and bit 7 to bit 0. -/
theorem getLsbD_rotateLeftCircular (v : Byte) {j : Nat} (hj : j < 8) :
    (rotateLeftCircular v).getLsbD ((j + 1) % 8) = v.getLsbD j := by
  rw [rotateLeftCircular_eq, BitVec.getLsbD_rotateLeft_of_le (by decide)]
  rcases Nat.lt_or_ge (j + 1) 8 with hlt | hge
  · simp [Nat.mod_eq_of_lt hlt, hlt]
  · obtain rfl : j = 7 := by omega
    rfl

/-- `n` rotations carry each bit `n` places on. -/
theorem getLsbD_iterate_rotateLeftCircular (v : Byte) {j : Nat} (hj : j < 8) (n : Nat) :
    (rotateLeftCircular^[n] v).getLsbD ((j + n) % 8) = v.getLsbD j := by
  induction n with
  | zero => rw [Nat.add_zero, Nat.mod_eq_of_lt hj, Function.iterate_zero_apply]
  | succ n ih =>
    have hplace : (j + (n + 1)) % 8 = ((j + n) % 8 + 1) % 8 := by omega
    rw [hplace, Function.iterate_succ_apply', getLsbD_rotateLeftCircular _ (Nat.mod_lt _ (by decide)), ih]

/-- Eight places on is the same place (R116). -/
theorem iterate_eight_rotateLeftCircular (v : Byte) : rotateLeftCircular^[8] v = v := by
  apply BitVec.eq_of_getLsbD_eq
  intro j hj
  have hbit := getLsbD_iterate_rotateLeftCircular v hj 8
  rwa [Nat.add_mod_right, Nat.mod_eq_of_lt hj] at hbit

/-- RLCA writes every flag, and no bit below them (R115, R116). -/
theorem lowNibbleKept_effect_rlca (s : State) : lowNibbleKept s (effect .rlca s) := by
  intro j hj
  rw [effect_f]
  exact getLsbD_flagsAfter_kept s s.f fun x _ => (Nat.lt_of_lt_of_le hj (four_le_bit x)).ne

/-- RLCA's flags: the Carry is old bit 7, the three others are forced to false. -/
theorem getFlag_effect_rlca (s : State) (x : Flag) :
    (effect .rlca s).getFlag x = (decide (x = .carry) && s.a.getLsbD 7) := by
  rw [State.getFlag, effect_f, flagsAfter, getLsbD_flagsAfterRotate]
  cases x <;> rfl

/-- Settles O16: RLCA's effect is the rotation of A, the four flags and the PC advance, at row 0x07's cost. -/
theorem rlcaResult : Obligations.RlcaResult := by
  intro s
  have hentry : instrEntry config .rlca = some (entryRlca config) := rfl
  exact ⟨effect .rlca s, exec_effect hentry s, coreStep_of_entry hentry s, rfl, lowNibbleKept_effect_rlca s,
    fun _ => getLsbD_rotateLeftCircular s.a, getFlag_effect_rlca s .zero, getFlag_effect_rlca s .subtract,
    getFlag_effect_rlca s .halfCarry, getFlag_effect_rlca s .carry⟩

/-- A row's meaning `n` times in a row is its effect iterated. -/
theorem execTimes_of_entry {i : Instr} {e : Entry} (h : instrEntry config i = some e) (n : Nat) (s : State) :
    execTimes i n s = .next ((effect i)^[n] s) := by
  induction n generalizing s with
  | zero => rfl
  | succ n ih =>
    rw [execTimes, exec_effect h, Function.iterate_succ_apply]
    exact ih (effect i s)

theorem iterate_effect_rlca_a (n : Nat) (s : State) : ((effect .rlca)^[n] s).a = rotateLeftCircular^[n] s.a := by
  have hstep : Function.Semiconj State.a (effect .rlca) rotateLeftCircular := fun _ => rfl
  exact hstep.iterate_right n s

theorem iterate_effect_rlca_pc (n : Nat) (s : State) : ((effect .rlca)^[n] s).pc = s.pc + n • 1 := by
  have hstep : Function.Semiconj State.pc (effect .rlca) (· + 1) := fun _ => rfl
  rw [hstep.iterate_right n s, add_right_iterate_apply]

/-- Settles O20: A goes through eight rotations, and PC through eight advances. -/
theorem eightRlcasRestoreA : Obligations.EightRlcasRestoreA := by
  intro s
  refine ⟨(effect .rlca)^[8] s, execTimes_of_entry rfl 8 s, ?_, iterate_effect_rlca_pc 8 s⟩
  rw [iterate_effect_rlca_a, iterate_eight_rotateLeftCircular]

section
variable {op : Byte} {i : Descriptor} {s : State} {failure : Fault}

/-- An Instruction fails with its first static failure and with nothing else (R77, R124). -/
theorem runDescriptor_eq_fail_iff : runDescriptor op i s = .fail failure ↔ firstStaticFailure op i = some failure := by
  refine ⟨fun hrun => ?_, fun hfails => runDescriptor_of_staticFailure hfails s⟩
  cases hstatic : firstStaticFailure op i with
  | none =>
    obtain ⟨t, hok, -⟩ := exists_runDescriptor_ok hstatic s
    rw [hok] at hrun
    cases hrun
  | some first =>
    rw [runDescriptor_of_staticFailure hstatic s, StepResult.fail.injEq] at hrun
    rw [hrun]

/-- Only the first check answers NotImplemented, and it looks for the kind RXC(Right) alone (R117, D17). -/
theorem firstStaticFailure_eq_notImplemented_iff {carried : Byte} :
    firstStaticFailure op i = some (.notImplemented carried) ↔ i.kind = .rxc .right ∧ carried = op := by
  unfold firstStaticFailure
  split_ifs with hkind
  · simp [hkind, eq_comm]
  all_goals simp [hkind]

/-- An Instruction fails with NotImplemented exactly where its kind is RXC(Right), and with the step's opcode (R117, D16). -/
theorem runDescriptor_eq_notImplemented_iff {carried : Byte} :
    runDescriptor op i s = .fail (.notImplemented carried) ↔ i.kind = .rxc .right ∧ carried = op :=
  runDescriptor_eq_fail_iff.trans firstStaticFailure_eq_notImplemented_iff

variable {table : DecodeTable}

/-- A decode that succeeds found an entry of the table with the opcode (R55, R62). -/
theorem exists_entry_of_decodeWith {pc : Word} (h : decodeWith table op pc = some i) :
    ∃ e ∈ table, e.opcode = op ∧ i = e.descriptor pc := by
  obtain ⟨e, hfind, rfl⟩ := Option.map_eq_some_iff.mp h
  exact ⟨e, List.mem_of_find?_eq_some hfind, by simpa using List.find?_some hfind, rfl⟩

/-- Everything a failing step over a table can be: no entry has the opcode, or the run of one that has it fails. -/
theorem stepWith_fail (h : stepWith table op s = .fail failure) :
    (decodeWith table op s.pc = none ∧ failure = .unimplementedOpcode op) ∨
    ∃ e ∈ table, e.opcode = op ∧ runDescriptor op (e.descriptor s.pc) s = .fail failure := by
  unfold stepWith at h
  split at h
  · next i hdecode =>
    obtain ⟨e, he, hop, rfl⟩ := exists_entry_of_decodeWith hdecode
    exact .inr ⟨e, he, hop, h⟩
  · next hdecode =>
    rw [raiseFailure_eq, StepResult.fail.injEq] at h
    exact .inl ⟨hdecode, h.symm⟩

end

/-- A well-formed Instruction passes check (K) (R73). -/
theorem kind_ne_rotateRight_of_wellFormed {i : Descriptor} (h : i.wellFormed = true) : i.kind ≠ .rxc .right := by
  simp only [Descriptor.wellFormed, Bool.and_eq_true, bne_iff_ne] at h
  exact h.2

/-- Settles O23: only phase 2's first check answers NotImplemented, every entry of this table passes it, and 0x0F has none. -/
theorem rotateRightIsNotImplemented : Obligations.RotateRightIsNotImplemented := by
  refine ⟨fun op i s hkind => ?_, fun op carried i s => runDescriptor_eq_notImplemented_iff.mp,
    fun table op carried s hfail => ?_, fun cfg e he => ?_, coreStep_of_ge (by decide)⟩
  · have hrun : runDescriptor op i s = .fail (.notImplemented op) :=
      runDescriptor_eq_notImplemented_iff.mpr ⟨hkind, rfl⟩
    exact ⟨hrun, by rw [hrun]; rfl⟩
  · obtain ⟨-, hother⟩ | ⟨e, he, hop, hrun⟩ := stepWith_fail hfail
    · cases hother
    · obtain ⟨hkind, -⟩ := runDescriptor_eq_notImplemented_iff.mp hrun
      exact ⟨e, he, hop, hkind⟩
  · obtain ⟨hwellFormed, -⟩ := everyTableEntryIsWellFormed cfg e he
    exact kind_ne_rotateRight_of_wellFormed (hwellFormed 0)

end Sys2Proof.Machine
end

section
/-! What every failure of a step has, over any table: the step's opcode, and one of the four codes (60_exceptions.md R118, D16). -/

namespace Sys2Proof.Machine

section
variable {op : Byte} {failure : Fault}

/-- A failed check of phase 2 has the step's opcode and a code from 2 to 4: code 1 is left to phase 1 (R118, R124). -/
theorem opcode_code_of_firstStaticFailure {i : Descriptor} (h : firstStaticFailure op i = some failure) :
    failure.opcode = op ∧ 2 ≤ failure.code ∧ failure.code ≤ 4 := by
  unfold firstStaticFailure at h
  split_ifs at h <;> cases h
  all_goals simp [Fault.opcode, Fault.code]

/-- Decode finds nothing exactly where no entry has the opcode (R62, R66). -/
theorem decodeWith_eq_none_iff {table : DecodeTable} {pc : Word} :
    decodeWith table op pc = none ↔ ∀ e ∈ table, e.opcode ≠ op := by
  simp only [decodeWith, Option.map_eq_none_iff, List.find?_eq_none, beq_iff_eq, ne_eq]

end

/-- Settles O24: code 1 is the failure of decode, where no entry has the opcode, and an entry that has it fails with a later code. -/
theorem everyFailureCarriesItsOpcode : Obligations.EveryFailureCarriesItsOpcode := by
  intro table op s failure hfail
  obtain ⟨hnone, rfl⟩ | ⟨e, he, hop, hrun⟩ := stepWith_fail hfail
  · have habsent : ∀ e ∈ table, e.opcode ≠ op := decodeWith_eq_none_iff.mp hnone
    exact ⟨rfl, Nat.le_refl 1, by simp [Fault.code], fun _ => habsent, fun _ => rfl⟩
  · obtain ⟨hopcode, hlow, hhigh⟩ := opcode_code_of_firstStaticFailure (runDescriptor_eq_fail_iff.mp hrun)
    exact ⟨hopcode, by omega, hhigh, fun hone => by omega, fun habsent => absurd hop (habsent e he)⟩

end Sys2Proof.Machine
end

section
/-! The caller's loop: a run of one more step is one more turn of the loop on the shorter run's result, and what a turn can do
(70_reset_and_hazards.md R139, R140). -/

namespace Sys2Proof.Machine

/-- One more turn of the caller's loop on a result: a run that failed stays as it ended (R140). -/
def RunResult.turn (r : RunResult) : RunResult :=
  match r.failed with
  | none => runFrom r.total 1 r.final
  | some _ => r

/-- The loop's first turn comes first, so the last one is peeled off by induction on the number of turns before it. -/
theorem runFrom_succ (total n : Nat) (s : State) : runFrom total (n + 1) s = (runFrom total n s).turn := by
  induction n generalizing total s with
  | zero => rfl
  | succ n ih =>
    cases hstep : coreStep (fetchOpcode s) s with
    | ok t cycles => rw [runFrom_of_ok hstep, runFrom_of_ok hstep, ih]
    | fail failure => rw [runFrom_of_fail hstep, runFrom_of_fail hstep]; rfl

theorem runCaller_succ (n : Nat) (s : State) : runCaller (n + 1) s = (runCaller n s).turn := runFrom_succ 0 n s

section
variable {r : RunResult} {failure : Fault}

theorem turn_of_failed (hfailed : r.failed = some failure) : r.turn = r := by
  rw [RunResult.turn, hfailed]

theorem turn_of_ok {t : State} {cycles : Nat} (hsafe : r.failed = none)
    (hstep : coreStep (fetchOpcode r.final) r.final = .ok t cycles) : r.turn = ⟨t, r.total + cycles, none⟩ := by
  rw [RunResult.turn, hsafe]
  exact runFrom_of_ok hstep

theorem turn_of_fail (hsafe : r.failed = none) (hstep : coreStep (fetchOpcode r.final) r.final = .fail failure) :
    r.turn = ⟨r.final, r.total, some failure⟩ := by
  rw [RunResult.turn, hsafe]
  exact runFrom_of_fail hstep

/-- Everything a turn can do: none is taken after a failure, one on an opcode in the table does not fail, and one on any other opcode
fails with it and keeps the end state and the total (R66, R99, R140). -/
theorem turn_cases (r : RunResult) :
    ((∃ failure, r.failed = some failure) ∧ r.turn = r) ∨
    (r.failed = none ∧ r.final.decodes ∧ r.turn.failed = none) ∨
    (r.failed = none ∧ 0x0A ≤ (fetchOpcode r.final).toNat ∧
      r.turn = ⟨r.final, r.total, some (.unimplementedOpcode (fetchOpcode r.final))⟩) := by
  cases hfailed : r.failed with
  | some failure => exact .inl ⟨⟨failure, rfl⟩, turn_of_failed hfailed⟩
  | none =>
    obtain ⟨hlt, e, -, hstep⟩ | ⟨hge, -, hstep⟩ := coreStep_cases (fetchOpcode r.final)
    · exact .inr (.inl ⟨rfl, hlt, by rw [turn_of_ok hfailed (hstep r.final)]⟩)
    · exact .inr (.inr ⟨rfl, hge, turn_of_fail hfailed (hstep r.final)⟩)

/-- A turn ends with no failure exactly from a run that has none and stands at an opcode in the table. -/
theorem turn_failed_eq_none_iff : r.turn.failed = none ↔ r.failed = none ∧ r.final.decodes := by
  obtain ⟨⟨failure, hfailed⟩, hturn⟩ | ⟨hsafe, hdecodes, hturn⟩ | ⟨-, hge, hturn⟩ := turn_cases r
  · simp [hturn, hfailed]
  · simp [hturn, hsafe, hdecodes]
  · have houtside : ¬ r.final.decodes := Nat.not_lt.mpr hge
    simp [hturn, houtside]

end

/-- A safe run is one that met no opcode outside the table on its way, by induction on its length. -/
theorem safeRun_iff (n : Nat) (s : State) : SafeRun n s ↔ ∀ k, k < n → (runCaller k s).final.decodes := by
  induction n with
  | zero => exact iff_of_true rfl nofun
  | succ n ih => rw [Nat.forall_lt_succ_right, ← ih, SafeRun, runCaller_succ, turn_failed_eq_none_iff, SafeRun]

/-- A failed run ended in its failing turn: the run of the turns before it is safe, and has the same end state and total. -/
theorem exists_safeRun_of_failed {n : Nat} {s : State} {failure : Fault} (h : (runCaller n s).failed = some failure) :
    failure = .unimplementedOpcode (fetchOpcode (runCaller n s).final) ∧
    0x0A ≤ (fetchOpcode (runCaller n s).final).toNat ∧
    ∃ k, k < n ∧ SafeRun k s ∧ runCaller k s = { runCaller n s with failed := none } := by
  induction n with
  | zero => cases h
  | succ n ih =>
    rw [runCaller_succ] at h ⊢
    obtain ⟨-, hturn⟩ | ⟨-, -, hsafe⟩ | ⟨hsafe, hge, hturn⟩ := turn_cases (runCaller n s)
    · rw [hturn] at h ⊢
      obtain ⟨hfailure, hge, k, hk, hrun⟩ := ih h
      exact ⟨hfailure, hge, k, Nat.lt_succ_of_lt hk, hrun⟩
    · rw [hsafe] at h
      cases h
    · rw [hturn] at h ⊢
      exact ⟨(Option.some.inj h).symm, hge, n, Nat.lt_succ_self n, hsafe, by rw [← hsafe]⟩

/-- Settles O57, from what a failed run and a safe run are. -/
theorem aRunFailsOnlyAtAnOpcodeOutsideTheTable : Obligations.ARunFailsOnlyAtAnOpcodeOutsideTheTable :=
  ⟨fun _ _ _ => exists_safeRun_of_failed, safeRun_iff⟩

/-- Settles O58: the machine's step is the outcome of the table-driven step, and the loop's next turn takes that step. -/
theorem theCallerLoopIteratesTheStep : Obligations.TheCallerLoopIteratesTheStep := by
  intro n s hsafe t cycles hstep
  constructor
  · calc step (runCaller n s).final
      _ = (coreStep (fetchOpcode (runCaller n s).final) (runCaller n s).final).toOutcome :=
        meaningsAgreeWithTheTableDrivenStep _ _
      _ = .next t := by rw [hstep, toOutcome_ok]
  · rw [runCaller_succ, turn_of_ok hsafe hstep]

/-- A step on the byte at PC over empty memory is a NOP (R139). -/
theorem coreStep_fetchOpcode_of_empty {s : State} (h : ∀ addr, Memory.read8 s.mem addr = 0) :
    coreStep (fetchOpcode s) s = .ok { s with pc := s.pc + 1 } 4 := by
  have hfetch : fetchOpcode s = 0x00 := h s.pc
  obtain ⟨-, hnop⟩ := nopOnlyAdvancesPc s
  rw [hfetch, hnop]

/-- Settles O59, by induction on the number of steps: each turn is a NOP, which keeps memory empty. -/
theorem emptyMemoryRunsNopsForever : Obligations.EmptyMemoryRunsNopsForever := by
  intro s n hempty
  induction n with
  | zero => simp [runCaller, runFrom]
  | succ n ih =>
    have hnop : coreStep (fetchOpcode (runCaller n s).final) (runCaller n s).final =
        .ok { s with pc := s.pc + BitVec.ofNat 16 n + 1 } 4 := by
      rw [ih]
      exact coreStep_fetchOpcode_of_empty hempty
    rw [runCaller_succ, turn_of_ok (by rw [ih]) hnop, ih, BitVec.ofNat_add, BitVec.add_assoc]
    rfl

end Sys2Proof.Machine
end
